-- ==== Sys2Proof/Word.lean ====
section
/-! DEFINITION. Word types of the block (spec 00_scope.md R8, R9, R10): bytes, 16-bit CRC values, 32-bit signed
operands, byte sequences. -/

namespace Sys2Proof

/-- A byte: 8 bits, unsigned (R8). Bit 0 is the least significant, bit 7 the most significant (R9). -/
abbrev Byte := BitVec 8

/-- A CRC accumulator or a CRC value: 16 bits, unsigned (R8). -/
abbrev Word16 := BitVec 16

/-- The `SMENC` operand and the `SMDEC` result: 32 bits, read as two's complement (R8, R74). -/
abbrev I32 := BitVec 32

/-- A byte sequence; index 0 is the first byte received or sent (R10). -/
abbrev Bytes := List Byte

end Sys2Proof
end

