-- ==== Sys2Proof/Config.lean ====
section
/-! DEFINITION. The fixed constants of the block (spec 00_scope.md R7) and its two parameters, REGISTRY and FEED_MAX
(R6), held as ONE plain record so that a state can carry the configuration it runs under. -/

namespace Sys2Proof

/-- `START`: the byte that opens every frame (R7, 10_state.md R27). -/
abbrev START : Byte := 0x02#8

/-- `END`: the byte that closes every frame (R7, R27). -/
abbrev END : Byte := 0x03#8

/-- `POLY`: the CRC generator polynomial (R7). -/
abbrev POLY : Word16 := 0x1021#16

/-- `CRC_INIT`: the accumulator at the start of each CRC computation (R7, R30). -/
abbrev CRC_INIT : Word16 := 0x0000#16

/-- `HDR_LEN`: start, sender, command, length (R7). -/
abbrev HDR_LEN : Nat := 4

/-- `OVERHEAD`: the bytes of a frame that are not payload (R7; 90_conflicts.md C1). -/
abbrev OVERHEAD : Nat := 7

/-- `DIAG_MAX`: the longest diagnostic carried by `InvalidStart` and `UndefinedCommand` (R7; D10). -/
abbrev DIAG_MAX : Nat := 10

/-- `SM_MAX`: the largest sign-magnitude magnitude (R7, R100). -/
abbrev SM_MAX : Int := 127

/-- The Command Registry as data: one (command, payload length) pair per registered command. A command that no pair
names is unregistered (`None`). `Machine.registryLookup` reads it as the total function of 42_registry.md R110. -/
abbrev Registry := List (Byte × Byte)

/-- The canonical form of a registry: the commands strictly rise, so that equal tables are equal data. -/
def Registry.wf : Registry → Bool
  | [] => true
  | [_] => true
  | (c, _) :: (c', n') :: rest => decide (c.toNat < c'.toNat) && Registry.wf ((c', n') :: rest)

/-- The two parameters of the block (R6). They are fixed for the life of the block: no operation and no reset
writes them (R26, R111, R210). -/
structure Config where
  /-- `REGISTRY` (R6, R110; 92_eei_decisions.md D16: open). -/
  registry : Registry
  /-- `FEED_MAX`, the largest chunk one `RXFEED` may carry (R6; D8: open). -/
  feedMax : Nat
deriving DecidableEq, Repr

/-- A legal configuration: the registry in canonical form and `FEED_MAX` at least 1 (R6). -/
def Config.wf (c : Config) : Bool := c.registry.wf && decide (1 ≤ c.feedMax)

/-- The configuration of `State.reset`: the source registry with the one entry the document gives (R113), and
`FEED_MAX` = 65535. DESIGN CHOICE, unsafe (log entries 1 and 2): the spec leaves every other entry and `FEED_MAX` open.
No statement rests on either choice; statements quantify over the configuration. -/
def Config.source : Config := { registry := [(0x0F#8, 0x00#8)], feedMax := 65535 }

end Sys2Proof
end

