-- ==== Sys2Proof/Syntax.lean ====
section
/-! DEFINITION. The seven operations of the request interface as typed terms, and the request record of the port
(spec 30_encoding.md R72, R73, R74). -/

namespace Sys2Proof

/-- One constructor per row of spec/opcode_table.json, with the operands of that row (R73). -/
inductive Instr where
  /-- `CRC16 data` (opcode 0x01; 40_crc16.md R92). -/
  | crc16 (data : Bytes)
  /-- `SMENC v` (opcode 0x10; 41_sign_magnitude.md R101). -/
  | smenc (v : I32)
  /-- `SMDEC b` (opcode 0x11; R102). -/
  | smdec (b : Byte)
  /-- `REGLEN cmd` (opcode 0x20; 42_registry.md R112). -/
  | reglen (cmd : Byte)
  /-- `FENC sender_id, command, payload` (opcode 0x30; 43_frame_codec.md R120). An empty payload is an omitted one (R122). -/
  | fenc (senderId command : Byte) (payload : Bytes)
  /-- `FDEC span` (opcode 0x31; R130). -/
  | fdec (span : Bytes)
  /-- `RXFEED chunk` (opcode 0x40; 44_reassembler.md R150). -/
  | rxfeed (chunk : Bytes)
deriving DecidableEq, Repr

/-- The operands of a request record, typed as R73 and R74 type them; each constructor is named after the record's
field. A byte sequence carries its own length (R74). -/
inductive Operands where
  /-- A record with no operand field. -/
  | none
  | data (bytes : Bytes)
  | v (value : I32)
  | b (byte : Byte)
  | cmd (byte : Byte)
  | frame (senderId command : Byte) (payload : Bytes)
  | span (bytes : Bytes)
  | chunk (bytes : Bytes)
deriving DecidableEq, Repr

/-- A request: an 8-bit opcode and operands (R72). The opcode may be any byte: an unassigned one is answered (R75). -/
structure Request where
  op : Byte
  operands : Operands
deriving DecidableEq, Repr

end Sys2Proof
end

