-- ==== Sys2Proof/WellFormed.lean ====
section
/-! DEFINITION. Which instructions are requests of the block. Widths are in the types; the one check left is the length
of an `RXFEED` chunk (spec 30_encoding.md R73, R76). -/

namespace Sys2Proof

/-- `i` is a request of a block whose largest chunk is `feedMax`: an `RXFEED` chunk is 0 to `FEED_MAX` bytes long (R73,
R76, R220); every other operand is legal at every value of its type (R74). -/
def Instr.wf (feedMax : Nat) : Instr → Bool
  | .crc16 _ => true
  | .smenc _ => true
  | .smdec _ => true
  | .reglen _ => true
  | .fenc _ _ _ => true
  | .fdec _ => true
  | .rxfeed chunk => decide (chunk.length ≤ feedMax)

end Sys2Proof
end

