-- ==== Sys2Proof/Decode.lean ====
section
/-! DEFINITION. The decoder and the encoder between request records and instructions, both written from the opcode map
(spec 30_encoding.md R73). The request is a typed record and has no bit-level serialisation (R72, D3), so the decoder
reads records; it is total on them and names why it rejects one. -/

namespace Sys2Proof

/-- The seven operations, without operands. -/
inductive Op where
  | crc16 | smenc | smdec | reglen | fenc | fdec | rxfeed
deriving DecidableEq, Repr

/-- The opcode map, matched on all 8 bits (R73). -/
def opcodeTable : List (Byte × Op) :=
  [(0x01#8, .crc16), (0x10#8, .smenc), (0x11#8, .smdec), (0x20#8, .reglen),
   (0x30#8, .fenc), (0x31#8, .fdec), (0x40#8, .rxfeed)]

/-- The first row of a table whose opcode is `op`. -/
def lookupOpcode : List (Byte × Op) → Byte → Option Op
  | [], _ => none
  | (code, o) :: rest, op => if op = code then some o else lookupOpcode rest op

/-- The operation an opcode names; `none` for the 249 unassigned values (R75). -/
def opOf (op : Byte) : Option Op := lookupOpcode opcodeTable op

/-- Why a record is not an instruction. -/
inductive DecodeError where
  /-- The opcode is not in R73. The port answers it with `IllegalOperation` (R75, R191). -/
  | unassignedOpcode (op : Byte)
  /-- The record's operand fields are not the ones its opcode takes: not a record of R72. -/
  | operandsNotOfOpcode (op : Byte)
deriving DecidableEq, Repr

/-- The instruction with operation `o` and these operands, when they are the operands `o` takes (R73). -/
def withOperands : Op → Operands → Option Instr
  | .crc16, .data bytes => some (.crc16 bytes)
  | .smenc, .v value => some (.smenc value)
  | .smdec, .b byte => some (.smdec byte)
  | .reglen, .cmd byte => some (.reglen byte)
  | .fenc, .frame senderId command payload => some (.fenc senderId command payload)
  | .fdec, .span bytes => some (.fdec bytes)
  | .rxfeed, .chunk bytes => some (.rxfeed bytes)
  | _, _ => none

/-- The decoder. The opcode is checked before anything else (60_exceptions.md R195). -/
def decode (r : Request) : Except DecodeError Instr :=
  match opOf r.op with
  | none => .error (.unassignedOpcode r.op)
  | some o =>
    match withOperands o r.operands with
    | none => .error (.operandsNotOfOpcode r.op)
    | some i => .ok i

/-- The encoder: the record of an instruction (R73). -/
def encode : Instr → Request
  | .crc16 data => { op := 0x01#8, operands := .data data }
  | .smenc v => { op := 0x10#8, operands := .v v }
  | .smdec b => { op := 0x11#8, operands := .b b }
  | .reglen cmd => { op := 0x20#8, operands := .cmd cmd }
  | .fenc senderId command payload => { op := 0x30#8, operands := .frame senderId command payload }
  | .fdec span => { op := 0x31#8, operands := .span span }
  | .rxfeed chunk => { op := 0x40#8, operands := .chunk chunk }

/-- All operands zero: what a table word of the opcode alone leaves (a zero byte, a zero integer, an empty sequence). -/
def zeroOperands : Option Op → Operands
  | none => .none
  | some .crc16 => .data []
  | some .smenc => .v 0#32
  | some .smdec => .b 0#8
  | some .reglen => .cmd 0#8
  | some .fenc => .frame 0#8 0#8 []
  | some .fdec => .span []
  | some .rxfeed => .chunk []

/-- The record of a table word: its low byte is the opcode (opcode_table.json, bits 7..0) and the operands are zero. -/
def tableRequest (w : Nat) : Request :=
  { op := BitVec.ofNat 8 w, operands := zeroOperands (opOf (BitVec.ofNat 8 w)) }

/-- The instruction the decoder reads from an opcode-table word of `nbits` bits. The table gives every row the 8
opcode bits and no operand bits, so a word that does not fit one byte, or fewer than 8 bits, is no request. -/
def decodeTableWord (nbits w : Nat) : Option Instr :=
  if 8 ≤ nbits ∧ w < 256 then
    match decode (tableRequest w) with
    | .ok i => some i
    | .error _ => none
  else none

end Sys2Proof
end

