-- ==== Sys2Proof/Machine/State.lean ====
section
/-! DEFINITION. The state of the block as plain data (spec 10_state.md R20, R26, R30), what it hands back
(00_scope.md R13, 30_encoding.md R72, 60_exceptions.md R181), and the ways a step can stop. -/

namespace Sys2Proof.Machine

open Sys2Proof

/-- The error kinds (60_exceptions.md R180, R181), in the order of their codes. -/
inductive ErrorKind where
  | invalidStart
  | undefinedCommand
  | endMarkerMismatch
  | crcMismatch
  | tooShort
  | lengthMismatch
  | payloadLengthMismatch
  | unknownCommand
  | rangeError
  | illegalOperation
deriving DecidableEq, Repr

/-- `Frame`: one complete protocol message (R13). `payload` has `length` bytes: `Frame.wf`. -/
structure Frame where
  senderId : Byte
  command : Byte
  length : Byte
  payload : Bytes
  crc : Word16
deriving DecidableEq, Repr

/-- `Outcome`: a frame, or an error with its diagnostic bytes (R13). -/
inductive RxOutcome where
  | frame (f : Frame)
  | error (kind : ErrorKind) (diag : Bytes)
deriving DecidableEq, Repr

/-- The result of a successful request, one constructor per result type of R73. -/
inductive Result where
  | crc (value : Word16)
  | byte (value : Byte)
  | int (value : I32)
  | len (value : Option Byte)
  | bytes (frame : Bytes)
  | frame (value : Frame)
  | outcomes (out : List RxOutcome)
deriving DecidableEq, Repr

/-- A response (R72): success with its results, or an error with its diagnostic bytes. The 8-bit code is
`responseCode` of Machine/Flags.lean (R181). -/
inductive Response where
  | ok (result : Result)
  | error (kind : ErrorKind) (diag : Bytes)
deriving DecidableEq, Repr

/-- What can arrive at the block between two requests: a request on the port, or the reset input (R72, R210, R211). -/
inductive PortInput where
  /-- A request record sent by the requester with this number. -/
  | request (requester : Nat) (r : Request)
  /-- The reset input. -/
  | reset
deriving DecidableEq, Repr

/-- The state of one block instance. `cfg` and `buf` are the spec's; `feeder`, `port` and `responses` are the
model's own, for the duty of one feeder and the two directions of the port. -/
structure State where
  /-- The configuration store: REGISTRY and FEED_MAX (R6, R26). -/
  cfg : Config
  /-- The receive buffer: bytes received but not yet resolved into frames or errors (R20). -/
  buf : Bytes
  /-- The one requester that feeds this instance, once it has fed it (R31, R52, R216). -/
  feeder : Option Nat
  /-- Inputs that have arrived and wait, in arrival order (R48, R51, R211). -/
  port : List PortInput
  /-- The responses handed back, oldest first (R51, R72). -/
  responses : List Response
deriving DecidableEq, Repr

/-- Faults. There is none: the block has no trap, and every failure is data in a response (R24, R196). -/
inductive Fault where
deriving DecidableEq, Repr

/-- Refusals: requests outside the block's interface, to which the spec gives no step. -/
inductive Refusal where
  /-- An instruction with no meaning yet (raised by `exec` only; safe). No arm raises it in this model. -/
  | notModelled (mnemonic : String)
  /-- An `RXFEED` chunk longer than FEED_MAX (raised by `execRxfeed`; R76, R220: a model refuses it; safe). -/
  | chunkTooLong
  /-- An `RXFEED` from a second requester (raised by `serveRequest`; R52, R216: a model refuses it; safe). -/
  | secondFeeder
  /-- Operand fields that are not the opcode's: no record of R72 (raised by `serveRequest`; log entry 7; safe). -/
  | operandsNotOfOpcode
deriving DecidableEq, Repr

/-- The state that boot and reset leave under a configuration: buffer empty (R30, R210, R214), nothing arrived, nothing
answered, no feeder yet. -/
def State.resetWith (cfg : Config) : State :=
  { cfg := cfg, buf := [], feeder := none, port := [], responses := [] }

/-- The machine right after reset, under the configuration of log entries 1 and 2. -/
def State.reset : State := State.resetWith Config.source

end Sys2Proof.Machine
end

