-- ==== Sys2Proof/Machine/Ops.lean ====
section
/-! DEFINITION. The named operations every meaning is written over: byte sequences (spec 00_scope.md R10), the three
writes of the receive buffer (R12, R20), the registry read (R110), the response, the error response that stands where
an ISA has exception entry (60_exceptions.md R191, R196), and the reset input (70_reset_and_hazards.md R210). -/

namespace Sys2Proof.Machine

open Sys2Proof

/-! ### Byte sequences -/

/-- `s[i]`. Every rule reads inside the sequence; the 0 outside it is never a rule's value. -/
def byteAt (s : Bytes) (i : Nat) : Byte := s.getD i 0#8

/-- `s[a..b)`, half open (R10). -/
def slice (s : Bytes) (a b : Nat) : Bytes := (s.take b).drop a

/-- `zeros(n)` (R10). -/
def zeros (n : Nat) : Bytes := List.replicate n 0#8

/-- `v[15:8]` (R9). -/
def hiByte (v : Word16) : Byte := v.extractLsb' 8 8

/-- `v[7:0]` (R9). -/
def loByte (v : Word16) : Byte := v.extractLsb' 0 8

/-- `(zext_16(hi) << 8) | zext_16(lo)`: the CRC field is carried high byte first (20_memory.md R43, R63). -/
def wordOfBytes (hi lo : Byte) : Word16 := (hi.setWidth 16 <<< 8) ||| lo.setWidth 16

/-! ### The receive buffer: the three ways it is written (R12, R20) -/

/-- `BufAppend(s)`. -/
def bufAppend (buf s : Bytes) : Bytes := buf ++ s

/-- `BufDrop(n)`: `n` bytes leave the front. -/
def bufDrop (buf : Bytes) (n : Nat) : Bytes := buf.drop n

/-- `BufClear()`. -/
def bufClear (_buf : Bytes) : Bytes := []

/-! ### The registry -/

/-- `REGISTRY(c)` (R12, R110): the length paired with `c`, or `None`. -/
def registryLookup : Registry → Byte → Option Byte
  | [], _ => none
  | (c, n) :: rest, command => if command = c then some n else registryLookup rest command

/-! ### The response -/

/-- Ends an operation: its whole response is handed back (R48, R72). -/
def respond (r : Response) (s : State) : State := { s with responses := s.responses ++ [r] }

/-- `return v` (R12). -/
def returnOk (v : Result) (s : State) : Host.Outcome State Fault Refusal := .next (respond (.ok v) s)

/-- `fail K(d)` (R12): the error is returned as data, no state is saved, no mode changes, control goes nowhere (R196). -/
def failWith (k : ErrorKind) (d : Bytes) (s : State) : Host.Outcome State Fault Refusal :=
  .next (respond (.error k d) s)

/-- The answer to a request with an unassigned opcode: `IllegalOperation`, no diagnostic bytes, no operand read, no
change of state (R75, R191). -/
def illegalOperation (s : State) : Host.Outcome State Fault Refusal := failWith .illegalOperation [] s

/-! ### The reset input -/

/-- Reset sets `buf` to the empty sequence and changes nothing else; it produces no outcome (R210). -/
def applyReset (s : State) : State := { s with buf := [] }

end Sys2Proof.Machine
end

