-- ==== Sys2Proof/Machine/CommandRegistry.lean ====
section
/-! DEFINITION. The Command Registry's operation (spec 42_registry.md): `REGLEN`. -/

namespace Sys2Proof.Machine

open Sys2Proof

/-- `REGLEN` (opcode 0x20, R112): an unregistered command is the result `None`, not an error. -/
def execReglen (cmd : Byte) (s : State) : Host.Outcome State Fault Refusal :=
  returnOk (.len (registryLookup s.cfg.registry cmd)) s

end Sys2Proof.Machine
end

