-- ==== Sys2Proof/Machine/Crc.lean ====
section
/-! DEFINITION. The CRC16 Engine (spec 40_crc16.md): the step function, the checksum of a sequence, and `CRC16`. -/

namespace Sys2Proof.Machine

open Sys2Proof

/-- One round of `CrcStep`: if bit 15 is set, shift left and XOR with `POLY`, else shift left; the 16-bit shift is the
mask (R90). -/
def crcRound (w : Word16) : Word16 := if w.msb then (w <<< 1) ^^^ POLY else w <<< 1

/-- `n` rounds. -/
def crcRounds : Nat → Word16 → Word16
  | 0, w => w
  | n + 1, w => crcRounds n (crcRound w)

/-- `CrcStep(acc, b)`: the byte is XORed into bits 15 to 8, then 8 rounds (R90; MSB first, R44). -/
def crcStep (acc : Word16) (b : Byte) : Word16 := crcRounds 8 (acc ^^^ (b.setWidth 16 <<< 8))

/-- `crc16(data)`: `CrcStep` folded over the bytes in index order from `CRC_INIT` (R91). -/
def crc16 (data : Bytes) : Word16 := data.foldl crcStep CRC_INIT

/-- `CRC16` (opcode 0x01, R92). -/
def execCrc16 (data : Bytes) (s : State) : Host.Outcome State Fault Refusal :=
  returnOk (.crc (crc16 data)) s

end Sys2Proof.Machine
end

