-- ==== Sys2Proof/Machine/Operands.lean ====
section
/-! DEFINITION. How an operand or a byte field is read: the 32-bit signed operand (spec 30_encoding.md R74), the
fields of a sign-magnitude byte (R70), and the fields of a frame at their offsets (R60 to R64). -/

namespace Sys2Proof.Machine

open Sys2Proof

/-- The value of an `SMENC` operand: the whole 32-bit two's-complement integer, nothing truncated (R74). -/
def operandValue (v : I32) : Int := v.toInt

/-- `b[7]`, the sign of a sign-magnitude byte (R70). -/
def signBit (b : Byte) : Bool := b.msb

/-- `zext_32(b[6:0])`, the magnitude of a sign-magnitude byte (R70, R102). -/
def magnitude (b : Byte) : I32 := (b &&& 0x7F#8).setWidth 32

/-- `LEN` at offset 3, as an unsigned number, never sign-extended and never scaled (R60, R64). -/
def lenField (f : Bytes) : Nat := (byteAt f 3).toNat

/-- The length of the frame that starts at the front of `f`: `7 + LEN` (R61, R64). -/
def totalLen (f : Bytes) : Nat := OVERHEAD + lenField f

/-- The transmitted CRC: offsets `4 + L` and `5 + L`, high byte first (R63). -/
def crcField (f : Bytes) : Word16 :=
  wordOfBytes (byteAt f (HDR_LEN + lenField f)) (byteAt f (HDR_LEN + lenField f + 1))

/-- The bytes the CRC covers: offsets 0 to `3 + L` (R62). -/
def coveredBytes (f : Bytes) : Bytes := slice f 0 (HDR_LEN + lenField f)

/-- The byte at offset `6 + L`, where `END` stands (R60). -/
def endField (f : Bytes) : Byte := byteAt f (HDR_LEN + lenField f + 2)

/-- The frame record read from the layout of R60 (R130 step 7, R150 step 8). -/
def frameFields (f : Bytes) : Frame :=
  { senderId := byteAt f 1
    command := byteAt f 2
    length := byteAt f 3
    payload := slice f HDR_LEN (HDR_LEN + lenField f)
    crc := crcField f }

end Sys2Proof.Machine
end

