-- ==== Sys2Proof/Machine/FrameCodec.lean ====
section
/-! DEFINITION. The Frame Codec (spec 43_frame_codec.md): `FENC` and `FDEC`. -/

namespace Sys2Proof.Machine

open Sys2Proof

/-- `[START, sender_id, command, n] ++ p` (R120 step 3). -/
def frameHead (senderId command n : Byte) (p : Bytes) : Bytes := [START, senderId, command, n] ++ p

/-- The head followed by its CRC, high byte first, and `END` (R120 steps 4 and 5, R60). -/
def buildFrame (senderId command n : Byte) (p : Bytes) : Bytes :=
  frameHead senderId command n p ++
    [hiByte (crc16 (frameHead senderId command n p)), loByte (crc16 (frameHead senderId command n p)), END]

/-- The payload `FENC` sends for a registered length `n`: an empty one becomes `n` zero bytes, any other must have `n`
bytes (R120 step 2). -/
def payloadFor (n : Byte) (payload : Bytes) : Option Bytes :=
  if payload.length = 0 ∧ 0 < n.toNat then some (zeros n.toNat)
  else if payload.length ≠ n.toNat then none
  else some payload

/-- The frame `FENC` builds, or its error; the command is checked before the payload (R120, R194). -/
def encodeFrame (reg : Registry) (senderId command : Byte) (payload : Bytes) : Except ErrorKind Bytes :=
  match registryLookup reg command with
  | none => .error .unknownCommand
  | some n =>
    match payloadFor n payload with
    | none => .error .payloadLengthMismatch
    | some p => .ok (buildFrame senderId command n p)

/-- The frame of a span, or the first check that fails (R130, R132). -/
def decodeFrame (span : Bytes) : Except ErrorKind Frame :=
  if span.length < OVERHEAD then .error .tooShort
  else if span.length ≠ totalLen span then .error .lengthMismatch
  else if byteAt span 0 ≠ START then .error .invalidStart
  else if endField span ≠ END then .error .endMarkerMismatch
  else if crc16 (coveredBytes span) ≠ crcField span then .error .crcMismatch
  else .ok (frameFields span)

/-- `FENC` (opcode 0x30, R120); its errors carry no diagnostic bytes (R124). -/
def execFenc (senderId command : Byte) (payload : Bytes) (s : State) : Host.Outcome State Fault Refusal :=
  match encodeFrame s.cfg.registry senderId command payload with
  | .ok f => returnOk (.bytes f) s
  | .error k => failWith k [] s

/-- `FDEC` (opcode 0x31, R130); each error carries the whole span (R133). -/
def execFdec (span : Bytes) (s : State) : Host.Outcome State Fault Refusal :=
  match decodeFrame span with
  | .ok f => returnOk (.frame f) s
  | .error k => failWith k span s

end Sys2Proof.Machine
end

