-- ==== Sys2Proof/Machine/Reassembler.lean ====
section
/-! DEFINITION. The Stream Reassembler (spec 44_reassembler.md): one pass of the parse loop, the loop, `RXFEED`, and the
classification of the buffer (10_state.md R28). -/

namespace Sys2Proof.Machine

open Sys2Proof

/-- What one pass of the loop finds at the front of the buffer (R150). -/
inductive Pass where
  /-- Steps 1, 3 and 5: stop with no outcome, the bytes kept (R152, R154, R156). -/
  | wait
  /-- An error: emit it, clear the buffer, stop (R153, R155, R157, R158). -/
  | reject (kind : ErrorKind) (diag : Bytes)
  /-- Step 8: emit the frame, drop `total` bytes, go on (R159). -/
  | accept (f : Frame) (total : Nat)
deriving DecidableEq, Repr

/-- One pass, steps 1 to 8 (R150). `LEN` is not compared with the registered length (R165). -/
def scanFront (reg : Registry) (buf : Bytes) : Pass :=
  if buf.length = 0 then .wait
  else if byteAt buf 0 ≠ START then .reject .invalidStart (buf.take DIAG_MAX)
  else if buf.length < HDR_LEN then .wait
  else if registryLookup reg (byteAt buf 2) = none then .reject .undefinedCommand (buf.take DIAG_MAX)
  else if buf.length < totalLen buf then .wait
  else if endField buf ≠ END then .reject .endMarkerMismatch (buf.take (totalLen buf))
  else if crc16 (coveredBytes buf) ≠ crcField buf then .reject .crcMismatch (buf.take (totalLen buf))
  else .accept (frameFields buf) (totalLen buf)

/-- The parse loop: the outcomes it emits and the buffer it leaves (R150). The first argument bounds the passes;
`parseBuffer` gives it one more than the bytes there are, and each pass that goes on takes at least 7 (R160), so the
bound is never met. -/
def parseLoop (reg : Registry) : Nat → Bytes → List RxOutcome × Bytes
  | 0, buf => ([], buf)
  | passes + 1, buf =>
    match scanFront reg buf with
    | .wait => ([], buf)
    | .reject kind diag => ([.error kind diag], bufClear buf)
    | .accept f total =>
      let rest := parseLoop reg passes (bufDrop buf total)
      (.frame f :: rest.1, rest.2)

/-- The parse loop run to `stop` (R150). -/
def parseBuffer (reg : Registry) (buf : Bytes) : List RxOutcome × Bytes := parseLoop reg (buf.length + 1) buf

/-- `RXFEED` (opcode 0x40, R150): append the whole chunk, run the loop, answer `OK` with the whole list. A chunk longer
than FEED_MAX is no request of the block and is refused (R76, R220). -/
def execRxfeed (chunk : Bytes) (s : State) : Host.Outcome State Fault Refusal :=
  if s.cfg.feedMax < chunk.length then .refused .chunkTooLong
  else
    let r := parseBuffer s.cfg.registry (bufAppend s.buf chunk)
    returnOk (.outcomes r.1) { s with buf := r.2 }

/-- The parse states of R28. -/
inductive ParseState where
  | seeking | headerPartial | bodyPartial | frameReady | reject
deriving DecidableEq, Repr

/-- `ParseState(buf)` (R28): a function of the buffer and the registry; no separate variable stores it. -/
def parseState (reg : Registry) (buf : Bytes) : ParseState :=
  if buf.length = 0 then .seeking
  else if byteAt buf 0 ≠ START then .reject
  else if buf.length < HDR_LEN then .headerPartial
  else if registryLookup reg (byteAt buf 2) = none then .reject
  else if buf.length < totalLen buf then .bodyPartial
  else .frameReady

end Sys2Proof.Machine
end

