-- ==== Sys2Proof/Machine/SignMagnitude.lean ====
section
/-! DEFINITION. The Signed-Byte Codec (spec 41_sign_magnitude.md): `SMENC` and `SMDEC`. -/

namespace Sys2Proof.Machine

open Sys2Proof

/-- The sign-magnitude byte of a value, or `none` outside -127 to 127 (R100, R101). The range check is on the whole
value. -/
def signMagnitudeEncode (x : Int) : Option Byte :=
  if -SM_MAX ≤ x ∧ x ≤ SM_MAX then
    some (if x < 0 then 0x80#8 ||| BitVec.ofInt 8 (-x) else BitVec.ofInt 8 x)
  else none

/-- The value of a sign-magnitude byte as a 32-bit integer (R102). -/
def signMagnitudeDecode (b : Byte) : I32 := if signBit b then -(magnitude b) else b.setWidth 32

/-- `SMENC` (opcode 0x10, R101). -/
def execSmenc (v : I32) (s : State) : Host.Outcome State Fault Refusal :=
  match signMagnitudeEncode (operandValue v) with
  | some b => returnOk (.byte b) s
  | none => failWith .rangeError [] s

/-- `SMDEC` (opcode 0x11, R102). -/
def execSmdec (b : Byte) (s : State) : Host.Outcome State Fault Refusal :=
  returnOk (.int (signMagnitudeDecode b)) s

end Sys2Proof.Machine
end

