-- ==== Sys2Proof/Machine/Dispatch.lean ====
section
/-! DEFINITION. One arm per instruction. -/

namespace Sys2Proof.Machine

open Sys2Proof

def exec (i : Instr) (s : State) : Host.Outcome State Fault Refusal :=
  match i with
  | .crc16 data => Sys2Proof.Machine.execCrc16 data s
  | .smenc v => Sys2Proof.Machine.execSmenc v s
  | .smdec b => Sys2Proof.Machine.execSmdec b s
  | .reglen cmd => Sys2Proof.Machine.execReglen cmd s
  | .fenc senderId command payload => Sys2Proof.Machine.execFenc senderId command payload s
  | .fdec span => Sys2Proof.Machine.execFdec span s
  | .rxfeed chunk => Sys2Proof.Machine.execRxfeed chunk s

end Sys2Proof.Machine
end

