-- ==== Sys2Proof/Machine/Flags.lean ====
section
/-! DEFINITION. The block has no status flags (spec 10_state.md R24); what a request reports is the 8-bit code of its
response and of each outcome. These are the codes of 60_exceptions.md R181. -/

namespace Sys2Proof.Machine

open Sys2Proof

/-- The code of an error kind (R181). -/
def errorCode : ErrorKind → Byte
  | .invalidStart => 0x01#8
  | .undefinedCommand => 0x02#8
  | .endMarkerMismatch => 0x03#8
  | .crcMismatch => 0x04#8
  | .tooShort => 0x05#8
  | .lengthMismatch => 0x06#8
  | .payloadLengthMismatch => 0x07#8
  | .unknownCommand => 0x08#8
  | .rangeError => 0x09#8
  | .illegalOperation => 0x0A#8

/-- `OK` (R181). -/
def okCode : Byte := 0x00#8

/-- The code of a response (R72, R181). -/
def responseCode : Response → Byte
  | .ok _ => okCode
  | .error k _ => errorCode k

/-- The code of an outcome of `RXFEED`: a frame carries `OK` (R181). -/
def outcomeCode : RxOutcome → Byte
  | .frame _ => okCode
  | .error k _ => errorCode k

/-- The diagnostic bytes a response carries (R181). -/
def responseDiag : Response → Bytes
  | .ok _ => []
  | .error _ d => d

end Sys2Proof.Machine
end

