-- ==== Sys2Proof/Machine/Port.lean ====
section
/-! DEFINITION. The request port (spec 20_memory.md R48, R51, R52; 30_encoding.md R72, R75): how one arrived input is
served. -/

namespace Sys2Proof.Machine

open Sys2Proof

/-- Which instructions feed the reassembler (R20, R52). -/
def feeds : Instr → Bool
  | .crc16 _ => false
  | .smenc _ => false
  | .smdec _ => false
  | .reglen _ => false
  | .fenc _ _ _ => false
  | .fdec _ => false
  | .rxfeed _ => true

/-- The single-feeder duty: the first requester that feeds an instance is its feeder, and a feed from any other has no
meaning (R52, R216; log entry 6). Every other request is open to every requester (R200). -/
def admitFeeder (requester : Nat) (i : Instr) (s : State) : Option State :=
  if feeds i then
    match s.feeder with
    | none => some { s with feeder := some requester }
    | some q => if q = requester then some s else none
  else some s

/-- One request, whole (R48): the opcode check comes before everything (R195). -/
def serveRequest (requester : Nat) (r : Request) (s : State) : Host.Outcome State Fault Refusal :=
  match decode r with
  | .error (.unassignedOpcode _) => illegalOperation s
  | .error (.operandsNotOfOpcode _) => .refused .operandsNotOfOpcode
  | .ok i =>
    match admitFeeder requester i s with
    | none => .refused .secondFeeder
    | some s' => exec i s'

/-- The next input, in arrival order (R51). Reset takes effect between two requests (R211). With nothing arrived the
block holds what it holds (R205; log entry 4). -/
def serveNext (s : State) : Host.Outcome State Fault Refusal :=
  match s.port with
  | [] => .next s
  | .reset :: rest => .next (applyReset { s with port := rest })
  | .request requester r :: rest => serveRequest requester r { s with port := rest }

/-- The requester of the next table word: the instance's feeder, or requester 0 before it has one. -/
def portRequester (s : State) : Nat := s.feeder.getD 0

/-- Puts a request at the head of the port. -/
def arriveFirst (requester : Nat) (r : Request) (s : State) : State :=
  { s with port := .request requester r :: s.port }

end Sys2Proof.Machine
end

