-- ==== Sys2Proof/Machine/Step.lean ====
section
/-! DEFINITION. One step of the block: it serves the next input of its port, whole (spec 20_memory.md R48). -/

namespace Sys2Proof.Machine

open Sys2Proof

/-- One step (R48, R51, R211). -/
def step (s : State) : Host.Outcome State Fault Refusal := serveNext s

/-- `s` with the request of a table word at the head of the port, from the requester the port admits. -/
def State.withFetchWord (s : State) (_nbits w : Nat) : State := arriveFirst (portRequester s) (tableRequest w) s

end Sys2Proof.Machine
end

