-- ==== Sys2Proof/Machine/Asm.lean ====
section
/-! DEFINITION. The request syntax of spec 30_encoding.md R77: a reader of one line and a writer of the canonical line.
It is how the spec writes requests; no meaning depends on it. White space between the parts of a line is free (log
entry 8). -/

namespace Sys2Proof.Machine

open Sys2Proof

/-- The parts of a line. `dash` is the sign of a negative integer, or an omitted payload. -/
inductive Tok where
  | word (letters : List Char)
  | lbrack | rbrack | comma | colon | dash
deriving DecidableEq, Repr

/-- Letters, digits and `_` make words. -/
def isWordChar (c : Char) : Bool := c.isAlphanum || c == '_'

/-- A pending word, read backwards, goes before the tokens that follow it. -/
def flushWord : List Char → List Tok → List Tok
  | [], toks => toks
  | c :: cs, toks => .word (c :: cs).reverse :: toks

/-- The one-character parts. -/
def punctuation (c : Char) : Option Tok :=
  if c = '[' then some .lbrack
  else if c = ']' then some .rbrack
  else if c = ',' then some .comma
  else if c = ':' then some .colon
  else if c = '-' then some .dash
  else none

/-- The parts of a line; `--` starts a comment (R77). The first argument is the pending word. -/
def lexLine : List Char → List Char → Option (List Tok)
  | word, [] => some (flushWord word [])
  | word, '-' :: '-' :: _ => some (flushWord word [])
  | word, c :: cs =>
    if isWordChar c then lexLine (c :: word) cs
    else if c = ' ' then (lexLine [] cs).map (flushWord word)
    else
      match punctuation c with
      | none => none
      | some t => (lexLine [] cs).map fun toks => flushWord word (t :: toks)

/-- The digits, each at its own value; the writer's capitals (log entry 8). -/
def digits : List Char := ['0', '1', '2', '3', '4', '5', '6', '7', '8', '9', 'A', 'B', 'C', 'D', 'E', 'F']

/-- The value of a digit: its place in the list. -/
def digitValue (c : Char) : List Char → Option Nat
  | [] => none
  | d :: ds => if d = c then some 0 else (digitValue c ds).map Nat.succ

/-- A hex digit, of either case (R77; log entry 8). -/
def hexDigit (c : Char) : Option Nat := digitValue c.toUpper digits

/-- Two hex digits. -/
def hexPair (hi lo : Char) : Option Byte :=
  match hexDigit hi, hexDigit lo with
  | some h, some l => some (BitVec.ofNat 8 (16 * h + l))
  | _, _ => none

/-- `0x` followed by two hex digits (R77). -/
def hexByte : List Char → Option Byte
  | ['0', 'x', hi, lo] => hexPair hi lo
  | _ => none

/-- Inside a byte list, two hex digits may stand alone (R77). -/
def listByte : List Char → Option Byte
  | [hi, lo] => hexPair hi lo
  | w => hexByte w

/-- The bytes of a list after its `[`, up to the end of the line. -/
def parseItems : List Tok → Option Bytes
  | [.word w, .rbrack] => (listByte w).map fun b => [b]
  | .word w :: .comma :: rest =>
    match listByte w, parseItems rest with
    | some b, some bs => some (b :: bs)
    | _, _ => none
  | _ => none

/-- A byte list; `[]` is empty (R77). -/
def parseBytes : List Tok → Option Bytes
  | [.lbrack, .rbrack] => some []
  | .lbrack :: rest => parseItems rest
  | _ => none

/-- A decimal digit. -/
def decDigit (c : Char) : Option Nat := digitValue c (digits.take 10)

/-- Decimal digits read from the left onto `acc`. -/
def parseDigits (acc : Nat) : List Char → Option Nat
  | [] => some acc
  | c :: cs =>
    match decDigit c with
    | some d => parseDigits (10 * acc + d) cs
    | none => none

/-- A decimal integer of the 32-bit range (R74, R77). -/
def parseInt : List Tok → Option I32
  | [.word (c :: cs)] =>
    match parseDigits 0 (c :: cs) with
    | some n => if n < 2 ^ 31 then some (BitVec.ofNat 32 n) else none
    | none => none
  | [.dash, .word (c :: cs)] =>
    match parseDigits 0 (c :: cs) with
    | some n => if n ≤ 2 ^ 31 then some (-(BitVec.ofNat 32 n)) else none
    | none => none
  | _ => none

/-- One byte operand outside a list. -/
def parseByte : List Tok → Option Byte
  | [.word w] => hexByte w
  | _ => none

/-- The operands of `FENC`; a payload written `-` is omitted, the same as `[]` (R77, R78, R122). -/
def parseFenc : List Tok → Option Instr
  | [.word s, .comma, .word c, .comma, .dash] =>
    match hexByte s, hexByte c with
    | some sender, some command => some (.fenc sender command [])
    | _, _ => none
  | .word s :: .comma :: .word c :: .comma :: rest =>
    match hexByte s, hexByte c, parseBytes rest with
    | some sender, some command, some payload => some (.fenc sender command payload)
    | _, _, _ => none
  | _ => none

/-- The request of a mnemonic and its operand parts (R77). -/
def parseRequest : List Tok → Option Instr
  | .word m :: rest =>
    if m = ['C', 'R', 'C', '1', '6'] then (parseBytes rest).map .crc16
    else if m = ['S', 'M', 'E', 'N', 'C'] then (parseInt rest).map .smenc
    else if m = ['S', 'M', 'D', 'E', 'C'] then (parseByte rest).map .smdec
    else if m = ['R', 'E', 'G', 'L', 'E', 'N'] then (parseByte rest).map .reglen
    else if m = ['F', 'E', 'N', 'C'] then parseFenc rest
    else if m = ['F', 'D', 'E', 'C'] then (parseBytes rest).map .fdec
    else if m = ['R', 'X', 'F', 'E', 'E', 'D'] then (parseBytes rest).map .rxfeed
    else none
  | _ => none

/-- A line: an optional label, which has no other effect, and a request (R77). -/
def parseLine (line : List Char) : Option Instr :=
  match lexLine [] line with
  | some (.word _ :: .colon :: rest) => parseRequest rest
  | some toks => parseRequest toks
  | none => none

/-- The digit of a number below 16. -/
def hexChar (n : Nat) : Char := digits.getD n '0'

/-- A byte as two hex digits. -/
def writePair (b : Byte) : List Char := [hexChar (b.toNat / 16), hexChar (b.toNat % 16)]

/-- A byte outside a list. -/
def writeByte (b : Byte) : List Char := '0' :: 'x' :: writePair b

/-- The bytes of a list, separated by a comma and a space. -/
def writeItems : Bytes → List Char
  | [] => [']']
  | [b] => writePair b ++ [']']
  | b :: bs => writePair b ++ ',' :: ' ' :: writeItems bs

/-- A byte list. -/
def writeBytes (bs : Bytes) : List Char := '[' :: writeItems bs

/-- The last `k` decimal digits of `n`. -/
def writeDigits : Nat → Nat → List Char
  | 0, _ => []
  | k + 1, n => writeDigits k (n / 10) ++ [hexChar (n % 10)]

/-- How many decimal digits `n` takes, looking at most `k` of them. -/
def digitCount : Nat → Nat → Nat
  | 0, _ => 0
  | k + 1, n => if n = 0 then 0 else digitCount k (n / 10) + 1

/-- A natural number of the 32-bit range in decimal, with no leading zero. -/
def writeNat (n : Nat) : List Char := writeDigits (max 1 (digitCount 10 n)) n

/-- A signed integer in decimal. -/
def writeInt (v : I32) : List Char :=
  if v.toInt < 0 then '-' :: writeNat v.toInt.natAbs else writeNat v.toInt.natAbs

/-- The canonical line of a request (R77). -/
def writeLine : Instr → List Char
  | .crc16 data => ['C', 'R', 'C', '1', '6', ' '] ++ writeBytes data
  | .smenc v => ['S', 'M', 'E', 'N', 'C', ' '] ++ writeInt v
  | .smdec b => ['S', 'M', 'D', 'E', 'C', ' '] ++ writeByte b
  | .reglen cmd => ['R', 'E', 'G', 'L', 'E', 'N', ' '] ++ writeByte cmd
  | .fenc senderId command payload =>
    ['F', 'E', 'N', 'C', ' '] ++ writeByte senderId ++ [',', ' '] ++ writeByte command ++ [',', ' '] ++
      (if payload.length = 0 then ['-'] else writeBytes payload)
  | .fdec span => ['F', 'D', 'E', 'C', ' '] ++ writeBytes span
  | .rxfeed chunk => ['R', 'X', 'F', 'E', 'E', 'D', ' '] ++ writeBytes chunk

end Sys2Proof.Machine
end

