-- ==== Sys2Proof/Machine/Sessions.lean ====
section
/-! DEFINITION. Several instances side by side (spec 10_state.md R31, 60_exceptions.md R203): one state per open session,
one registry for all. -/

namespace Sys2Proof.Machine

open Sys2Proof

/-- The instances read one Command Registry (R31). -/
def sharedRegistry (reg : Registry) (instances : List State) : Prop := ∀ s ∈ instances, s.cfg.registry = reg

/-- Instance `k` takes a step; with no such instance nothing happens. Instances never signal one another (R203). -/
def stepInstance (k : Nat) (instances : List State) : Host.Outcome (List State) Fault Refusal :=
  match instances[k]? with
  | none => .next instances
  | some s =>
    match step s with
    | .next s' => .next (instances.set k s')
    | .fault f => .fault f
    | .refused r => .refused r

end Sys2Proof.Machine
end

