-- ==== Sys2Proof/Safety.lean ====
section
/-! DEFINITION. What holds of every run, in the terms claims use: the rest states of the buffer (spec 10_state.md R29),
the frame invariant on receive, the shape of what the block hands back (60_exceptions.md R181, 44_reassembler.md R161),
and the invariant of the machine. -/

namespace Sys2Proof.Machine

open Sys2Proof

/-- `RestInvariant(buf)`: the three rest states between two requests (R29). -/
abbrev RestInvariant (reg : Registry) (buf : Bytes) : Prop :=
  buf.length = 0 ∨
  (byteAt buf 0 = START ∧ buf.length < 4) ∨
  (byteAt buf 0 = START ∧ 4 ≤ buf.length ∧ registryLookup reg (byteAt buf 2) ≠ none ∧
    buf.length < 7 + (byteAt buf 3).toNat)

/-- A frame record that a byte layout can carry (R13, R60): `length` payload bytes, and the CRC of its covered bytes
(R62). -/
abbrev frameOk (f : Frame) : Prop :=
  f.payload.length = f.length.toNat ∧
  f.crc = crc16 ([START, f.senderId, f.command, f.length] ++ f.payload)

/-- An error that `RXFEED` may emit, with the diagnostic bytes it carries (R181, R182 to R185). -/
abbrev rxErrorOk (k : ErrorKind) (d : Bytes) : Prop :=
  (k = .invalidStart ∧ 1 ≤ d.length ∧ d.length ≤ 10 ∧ byteAt d 0 ≠ START) ∨
  (k = .undefinedCommand ∧ 4 ≤ d.length ∧ d.length ≤ 10 ∧ byteAt d 0 = START) ∨
  (k = .endMarkerMismatch ∧ d.length = 7 + (byteAt d 3).toNat ∧ byteAt d 0 = START ∧
    byteAt d (6 + (byteAt d 3).toNat) ≠ END) ∨
  (k = .crcMismatch ∧ d.length = 7 + (byteAt d 3).toNat ∧ byteAt d 0 = START ∧
    byteAt d (6 + (byteAt d 3).toNat) = END)

/-- Zero or more frames, then at most one error, the last (R161). -/
def outcomesOk : List RxOutcome → Prop
  | [] => True
  | .frame f :: rest => frameOk f ∧ outcomesOk rest
  | .error k d :: rest => rxErrorOk k d ∧ rest = []

/-- What a response may be (R181, R182 to R191): the results and errors the block can hand back. -/
def responseOk : Response → Prop
  | .ok (.crc _) => True
  | .ok (.byte b) => b ≠ 0x80#8
  | .ok (.int v) => -127 ≤ v.toInt ∧ v.toInt ≤ 127
  | .ok (.len _) => True
  | .ok (.bytes f) => f.length = 7 + (byteAt f 3).toNat ∧ byteAt f 0 = START ∧ byteAt f (6 + (byteAt f 3).toNat) = END
  | .ok (.frame f) => frameOk f
  | .ok (.outcomes out) => outcomesOk out
  | .error .invalidStart d => d.length = 7 + (byteAt d 3).toNat ∧ byteAt d 0 ≠ START
  | .error .undefinedCommand _ => False
  | .error .endMarkerMismatch d =>
    d.length = 7 + (byteAt d 3).toNat ∧ byteAt d 0 = START ∧ byteAt d (6 + (byteAt d 3).toNat) ≠ END
  | .error .crcMismatch d =>
    d.length = 7 + (byteAt d 3).toNat ∧ byteAt d 0 = START ∧ byteAt d (6 + (byteAt d 3).toNat) = END
  | .error .tooShort d => d.length < 7
  | .error .lengthMismatch d => 7 ≤ d.length ∧ d.length ≠ 7 + (byteAt d 3).toNat
  | .error .payloadLengthMismatch d => d = []
  | .error .unknownCommand d => d = []
  | .error .rangeError d => d = []
  | .error .illegalOperation d => d = []

/-- The invariant of the machine: a legal configuration (R6), a rest state between requests (R29), an instance that
nobody has fed holds nothing (R20), and every response handed back is one the block can give (R181). -/
structure Inv (s : State) : Prop where
  cfg : s.cfg.wf = true
  rest : RestInvariant s.cfg.registry s.buf
  unfed : s.feeder = none → s.buf = []
  answers : ∀ r ∈ s.responses, responseOk r

end Sys2Proof.Machine
end

