-- ==== Sys2Proof/Certificates/Slice0/Obligations.lean ====
section
/-! DEFINITION. The statements for the provers, and the few words of the spec they are stated in: the CRC round on
unbounded integers (spec 40_crc16.md R90 read by 00_scope.md R11), the bytes of a frame record (30_encoding.md R60), the
parse loop as a relation written from its steps (44_reassembler.md R150), and a flipped bit. -/

namespace Sys2Proof.Spec

open Sys2Proof Sys2Proof.Machine

/-- `n` rounds of R90 on unbounded integers, with the mask written out (R11). -/
def crcRoundsInt : Nat → Nat → Nat
  | 0, w => w
  | n + 1, w =>
    crcRoundsInt n (if w.testBit 15 then ((w <<< 1) ^^^ 0x1021) &&& 0xFFFF else (w <<< 1) &&& 0xFFFF)

/-- Bit `k` of byte `i` flipped. -/
def flipBit (s : Bytes) (i k : Nat) : Bytes := s.modify i (fun b => b ^^^ (1#8 <<< k))

/-- The bytes of a frame record in the layout of R60, the CRC high byte first. -/
def frameBytes (f : Frame) : Bytes :=
  [0x02#8, f.senderId, f.command, f.length] ++ f.payload ++
    [(f.crc >>> 8).setWidth 8, f.crc.setWidth 8, 0x03#8]

/-- A frame the reassembler emits: `length` payload bytes, a registered command, the right CRC (R150 steps 4 to 7). -/
def ReceivableFrame (reg : Registry) (f : Frame) : Prop :=
  f.payload.length = f.length.toNat ∧ registryLookup reg f.command ≠ none ∧
    f.crc = crc16 ([0x02#8, f.senderId, f.command, f.length] ++ f.payload)

/-- `RxLoop reg buf out left`: the parse loop, started on `buf`, emits `out` and leaves `left`. One constructor per exit
of R150 and one for the loop back. -/
inductive RxLoop (reg : Registry) : Bytes → List RxOutcome → Bytes → Prop where
  /-- Step 1 (R152). -/
  | empty : RxLoop reg [] [] []
  /-- Step 2 (R153). -/
  | badStart (b : Byte) (rest : Bytes) (hb : b ≠ 0x02#8) :
      RxLoop reg (b :: rest) [.error .invalidStart ((b :: rest).take 10)] []
  /-- Step 3 (R154). -/
  | shortHeader (rest : Bytes) (hl : rest.length < 3) : RxLoop reg (0x02#8 :: rest) [] (0x02#8 :: rest)
  /-- Step 4 (R155). -/
  | unregistered (sender c len : Byte) (rest : Bytes) (hr : registryLookup reg c = none) :
      RxLoop reg (0x02#8 :: sender :: c :: len :: rest)
        [.error .undefinedCommand ((0x02#8 :: sender :: c :: len :: rest).take 10)] []
  /-- Step 5 (R156). -/
  | shortBody (sender c len : Byte) (rest : Bytes) (hr : registryLookup reg c ≠ none)
      (hl : rest.length < len.toNat + 3) :
      RxLoop reg (0x02#8 :: sender :: c :: len :: rest) [] (0x02#8 :: sender :: c :: len :: rest)
  /-- Step 6 (R157). -/
  | badEnd (sender c len : Byte) (p : Bytes) (hi lo e : Byte) (rest : Bytes) (hr : registryLookup reg c ≠ none)
      (hp : p.length = len.toNat) (he : e ≠ 0x03#8) :
      RxLoop reg ([0x02#8, sender, c, len] ++ p ++ [hi, lo, e] ++ rest)
        [.error .endMarkerMismatch ([0x02#8, sender, c, len] ++ p ++ [hi, lo, e])] []
  /-- Step 7 (R158). -/
  | badCrc (sender c len : Byte) (p : Bytes) (hi lo : Byte) (rest : Bytes) (hr : registryLookup reg c ≠ none)
      (hp : p.length = len.toNat) (hc : crc16 ([0x02#8, sender, c, len] ++ p) ≠ hi ++ lo) :
      RxLoop reg ([0x02#8, sender, c, len] ++ p ++ [hi, lo, 0x03#8] ++ rest)
        [.error .crcMismatch ([0x02#8, sender, c, len] ++ p ++ [hi, lo, 0x03#8])] []
  /-- Step 8, and the loop again on what remains (R159). -/
  | frame (sender c len : Byte) (p : Bytes) (hi lo : Byte) (rest : Bytes) (hr : registryLookup reg c ≠ none)
      (hp : p.length = len.toNat) (hc : crc16 ([0x02#8, sender, c, len] ++ p) = hi ++ lo)
      (out : List RxOutcome) (left : Bytes) (again : RxLoop reg rest out left) :
      RxLoop reg ([0x02#8, sender, c, len] ++ p ++ [hi, lo, 0x03#8] ++ rest)
        (.frame { senderId := sender, command := c, length := len, payload := p, crc := hi ++ lo } :: out) left

/-- The payload of a frame for a command registered with length `n`: the zero fill of an omitted one (R120 step 2). -/
def filled (n : Byte) (payload : Bytes) : Bytes := if payload = [] then List.replicate n.toNat 0x00#8 else payload

/-- The outcomes of a list of responses, in order. -/
def outcomesOf : List Response → List RxOutcome
  | [] => []
  | .ok (.outcomes out) :: rest => out ++ outcomesOf rest
  | _ :: rest => outcomesOf rest

end Sys2Proof.Spec

open Sys2Proof Sys2Proof.Machine Sys2Proof.Spec

/-! ### CRC16 Engine -/

/-- R90: `CrcStep` is the integer pseudocode, masked to 16 bits after every round. -/
def Obligations.CrcStepIsIntegerPseudocode : Prop :=
  ∀ (acc : Word16) (b : Byte),
    (crcStep acc b).toNat = crcRoundsInt 8 (acc.toNat ^^^ (b.toNat <<< 8))

/-- R91: the checksum starts from 0x0000 and folds the step over the bytes in index order. -/
def Obligations.ChecksumFoldsStep : Prop :=
  crc16 [] = 0x0000#16 ∧ ∀ (s : Bytes) (b : Byte), crc16 (s ++ [b]) = crcStep (crc16 s) b

/-- R92: `CRC16` (opcode 0x01) answers the checksum at every state and for every data, and changes nothing else; empty
data and all-zero data give 0x0000; the worked example. -/
def Obligations.Crc16RequestReturnsChecksum : Prop :=
  (∀ (data : Bytes), decode { op := 0x01#8, operands := .data data } = .ok (.crc16 data)) ∧
  (∀ (data : Bytes) (s : State),
    exec (.crc16 data) s = .next { s with responses := s.responses ++ [.ok (.crc (crc16 data))] }) ∧
  (∀ n : Nat, crc16 (List.replicate n 0x00#8) = 0x0000#16) ∧
  crc16 [0x02#8, 0x01#8, 0x0F#8, 0x00#8] = 0xCA66#16

/-- The traces the spec works out from its own rules (40_crc16.md section 4, marked derived): the eight rounds of
`CrcStep(0x0000, 0x02)` and the running accumulator over the heartbeat's covered bytes. -/
def Obligations.CrcTracesOfHeartbeat : Prop :=
  (List.range 9).map (fun k => crcRounds k 0x0200#16) =
    [0x0200#16, 0x0400#16, 0x0800#16, 0x1000#16, 0x2000#16, 0x4000#16, 0x8000#16, 0x1021#16, 0x2042#16] ∧
  crcStep 0x0000#16 0x02#8 = 0x2042#16 ∧ crcStep 0x2042#16 0x01#8 = 0x7643#16 ∧
  crcStep 0x7643#16 0x0F#8 = 0xACBE#16 ∧ crcStep 0xACBE#16 0x00#8 = 0xCA66#16

/-- A flipped bit anywhere in a sequence changes its checksum (40_crc16.md section 4; the reason the spec gives there is
marked general knowledge). -/
def Obligations.FlippedBitChangesChecksum : Prop :=
  ∀ (data : Bytes) (i k : Nat), i < data.length → k < 8 → crc16 (flipBit data i k) ≠ crc16 data

/-- The residue: a sequence followed by its own checksum, high byte first, has checksum 0 (40_crc16.md section 4, marked
general knowledge). -/
def Obligations.ChecksumResidueIsZero : Prop :=
  ∀ m : Bytes, crc16 (m ++ [(crc16 m >>> 8).setWidth 8, (crc16 m).setWidth 8]) = 0x0000#16

/-- The CRC field (20_memory.md section 2, 30_encoding.md section 1) is read as `(high << 8) | low`, and the two bytes of a CRC read back as that CRC. -/
def Obligations.CrcFieldIsHighByteFirst : Prop :=
  (∀ hi lo : Byte, (wordOfBytes hi lo).toNat = 256 * hi.toNat + lo.toNat) ∧
  (∀ w : Word16, (hiByte w).toNat = w.toNat / 256 ∧ (loByte w).toNat = w.toNat % 256 ∧
    wordOfBytes (hiByte w) (loByte w) = w)

/-! ### Signed-Byte Codec -/

/-- R100, R101: `SMENC` (opcode 0x10) answers `RangeError` with no diagnostic bytes outside -127 to 127, the magnitude
with bit 7 set for a negative value, and the value itself otherwise; no truncation comes first. -/
def Obligations.SmencReturnsSignMagnitude : Prop :=
  (∀ v : I32, decode { op := 0x10#8, operands := .v v } = .ok (.smenc v)) ∧
  (∀ (v : I32) (s : State), v.toInt < -127 ∨ 127 < v.toInt →
    exec (.smenc v) s = .next { s with responses := s.responses ++ [.error .rangeError []] }) ∧
  (∀ (v : I32) (s : State), -127 ≤ v.toInt → v.toInt < 0 →
    ∃ b : Byte, b.toNat = 128 + (-v.toInt).toNat ∧
      exec (.smenc v) s = .next { s with responses := s.responses ++ [.ok (.byte b)] }) ∧
  (∀ (v : I32) (s : State), 0 ≤ v.toInt → v.toInt ≤ 127 →
    ∃ b : Byte, (b.toNat : Int) = v.toInt ∧
      exec (.smenc v) s = .next { s with responses := s.responses ++ [.ok (.byte b)] })

/-- R102: `SMDEC` (opcode 0x11) answers minus the low seven bits when bit 7 is set and the byte's own value otherwise, at
every state and for every byte. -/
def Obligations.SmdecReturnsValue : Prop :=
  (∀ b : Byte, decode { op := 0x11#8, operands := .b b } = .ok (.smdec b)) ∧
  (∀ (b : Byte) (s : State), ∃ v : I32,
    (v.toInt = if b.toNat < 128 then (b.toNat : Int) else -((b.toNat - 128 : Nat) : Int)) ∧
    exec (.smdec b) s = .next { s with responses := s.responses ++ [.ok (.int v)] })

/-- R103: for every value of -127 to 127, `SMENC` gives a byte and `SMDEC` of that byte gives the value back. -/
def Obligations.SignMagnitudeRoundTripFromValue : Prop :=
  ∀ (v : I32) (s : State), -127 ≤ v.toInt → v.toInt ≤ 127 →
    ∃ b : Byte, exec (.smenc v) s = .next { s with responses := s.responses ++ [.ok (.byte b)] } ∧
      exec (.smdec b) s = .next { s with responses := s.responses ++ [.ok (.int v)] }

/-- The round trip from a byte (41_sign_magnitude.md section 3, marked derived): every byte but 0x80 comes back, 0x80
comes back as 0x00, and 0x00 and 0x80 are the only two bytes with one value. -/
def Obligations.SignMagnitudeRoundTripFromByte : Prop :=
  (∀ (b : Byte) (s : State), ∃ v : I32,
    exec (.smdec b) s = .next { s with responses := s.responses ++ [.ok (.int v)] } ∧
    exec (.smenc v) s =
      .next { s with responses := s.responses ++ [.ok (.byte (if b = 0x80#8 then 0x00#8 else b))] }) ∧
  (∀ b b' : Byte, signMagnitudeDecode b = signMagnitudeDecode b' →
    b = b' ∨ (b = 0x00#8 ∧ b' = 0x80#8) ∨ (b = 0x80#8 ∧ b' = 0x00#8))

/-- Sign-magnitude and two's-complement bytes agree exactly on 0x00 to 0x7F and on 0xC0 (30_encoding.md section 2; its
sentence, marked derived, says they differ on every byte with bit 7 set, which is not so of 0xC0, -64 in both: log
entry 9). -/
def Obligations.SignMagnitudeVersusTwosComplement : Prop :=
  ∀ b : Byte, (signMagnitudeDecode b).toInt = b.toInt ↔ b.toNat ≤ 0x7F ∨ b = 0xC0#8

/-! ### Command Registry -/

/-- The registry is any total function from commands to lengths, and as data it has one canonical form (42_registry.md
section 1; the canonical form is the model's, log entry 3). -/
def Obligations.RegistryIsAnyTotalFunction : Prop :=
  (∀ f : Byte → Option Byte, ∃ reg : Registry, reg.wf = true ∧ ∀ c, registryLookup reg c = f c) ∧
  (∀ reg reg' : Registry, reg.wf = true → reg'.wf = true →
    (∀ c, registryLookup reg c = registryLookup reg' c) → reg = reg')

/-- R111: no request writes the registry and reset does not change it; a whole step changes no part of the
configuration. -/
def Obligations.NoStepChangesConfiguration : Prop :=
  (∀ s s' : State, step s = .next s' → s'.cfg = s.cfg) ∧
  (∀ (i : Instr) (s s' : State), exec i s = .next s' → s'.cfg = s.cfg) ∧
  (∀ s : State, (applyReset s).cfg = s.cfg)

/-- R112: `REGLEN` (opcode 0x20) answers the registry's entry, `None` included, at every state and for every byte. -/
def Obligations.ReglenReturnsEntry : Prop :=
  (∀ cmd : Byte, decode { op := 0x20#8, operands := .cmd cmd } = .ok (.reglen cmd)) ∧
  (∀ (cmd : Byte) (s : State),
    exec (.reglen cmd) s =
      .next { s with responses := s.responses ++ [.ok (.len (registryLookup s.cfg.registry cmd))] }) ∧
  (∀ s : State, registryLookup s.cfg.registry 0x0F#8 = some 0x00#8 →
    exec (.reglen 0x0F#8) s = .next { s with responses := s.responses ++ [.ok (.len (some 0x00#8))] })

/-- The source's registry (42_registry.md section 2) has the heartbeat entry. -/
def Obligations.SourceRegistryHasHeartbeat : Prop :=
  registryLookup State.reset.cfg.registry 0x0F#8 = some 0x00#8

/-- Who reads the registry (42_registry.md section 3). `CRC16`, `SMENC`, `SMDEC` and `FDEC` answer the same under every
configuration. `REGLEN` and `FENC`, for all operands, and `RXFEED` of a header to an empty buffer answer otherwise under
some other registry. -/
def Obligations.RegistryIsReadByThreeOperations : Prop :=
  (∀ (i : Instr) (s : State) (cfg : Config),
    (∃ data, i = .crc16 data) ∨ (∃ v, i = .smenc v) ∨ (∃ b, i = .smdec b) ∨ (∃ span, i = .fdec span) →
    ∃ r : Response, exec i s = .next { s with responses := s.responses ++ [r] } ∧
      exec i { s with cfg := cfg } = .next { s with cfg := cfg, responses := s.responses ++ [r] }) ∧
  (∀ (i : Instr) (s : State),
    (∃ cmd, i = .reglen cmd) ∨ (∃ sender command payload, i = .fenc sender command payload) ∨
      (s.buf = [] ∧ 4 ≤ s.cfg.feedMax ∧ ∃ sender c len, i = .rxfeed [0x02#8, sender, c, len]) →
    ∃ (reg : Registry) (t u : State) (r r' : Response),
      exec i s = .next t ∧ t.responses = s.responses ++ [r] ∧
      exec i { s with cfg := { s.cfg with registry := reg } } = .next u ∧ u.responses = s.responses ++ [r'] ∧ r ≠ r')

/-! ### Frame Codec -/

/-- R120: `FENC` (opcode 0x30). An unregistered command gives `UnknownCommand`, whatever the payload; a non-empty payload
of another length gives `PayloadLengthMismatch`; both carry no bytes. A payload of the registered length, or an empty
one, which becomes that many zero bytes, gives the whole frame: head, payload, CRC high byte first, END. -/
def Obligations.FencReturnsFrameOrError : Prop :=
  (∀ (sender command : Byte) (payload : Bytes),
    decode { op := 0x30#8, operands := .frame sender command payload } = .ok (.fenc sender command payload)) ∧
  (∀ (sender command : Byte) (payload : Bytes) (s : State), registryLookup s.cfg.registry command = none →
    exec (.fenc sender command payload) s =
      .next { s with responses := s.responses ++ [.error .unknownCommand []] }) ∧
  (∀ (sender command n : Byte) (payload : Bytes) (s : State), registryLookup s.cfg.registry command = some n →
    payload ≠ [] → payload.length ≠ n.toNat →
    exec (.fenc sender command payload) s =
      .next { s with responses := s.responses ++ [.error .payloadLengthMismatch []] }) ∧
  (∀ (sender command n : Byte) (payload : Bytes) (s : State), registryLookup s.cfg.registry command = some n →
    payload = [] ∨ payload.length = n.toNat →
    exec (.fenc sender command payload) s =
      .next { s with responses := s.responses ++
        [.ok (.bytes
          ([0x02#8, sender, command, n] ++ filled n payload ++
            [(crc16 ([0x02#8, sender, command, n] ++ filled n payload) >>> 8).setWidth 8,
             (crc16 ([0x02#8, sender, command, n] ++ filled n payload)).setWidth 8, 0x03#8]))] })

/-- R60, R61, R62, R63: every frame `FENC` hands back has the wire layout, byte by byte: it is `7 + n` bytes long, 7 to
262; the CRC bytes stand at `4 + n` and `5 + n`, high byte first, and cover the first `4 + n` bytes. -/
def Obligations.FencFrameHasWireLayout : Prop :=
  ∀ (sender command : Byte) (payload f : Bytes) (s t : State),
    exec (.fenc sender command payload) s = .next t → t.responses = s.responses ++ [.ok (.bytes f)] →
    ∃ n : Byte, registryLookup s.cfg.registry command = some n ∧
      f.length = 7 + n.toNat ∧ 7 ≤ f.length ∧ f.length ≤ 262 ∧
      f[0]? = some 0x02#8 ∧ f[1]? = some sender ∧ f[2]? = some command ∧ f[3]? = some n ∧
      (f.drop 4).take n.toNat = filled n payload ∧
      f[6 + n.toNat]? = some 0x03#8 ∧
      ∃ hi lo : Byte, f[4 + n.toNat]? = some hi ∧ f[5 + n.toNat]? = some lo ∧
        256 * hi.toNat + lo.toNat = (crc16 (f.take (4 + n.toNat))).toNat

/-- R130, R132, R133: `FDEC` (opcode 0x31) makes its checks in order, reports the first that fails with the whole span,
and otherwise answers the frame record, at every state and for every span. -/
def Obligations.FdecChecksInOrder : Prop :=
  (∀ span : Bytes, decode { op := 0x31#8, operands := .span span } = .ok (.fdec span)) ∧
  ∀ (span : Bytes) (s : State),
    exec (.fdec span) s = .next { s with responses := s.responses ++
      [if span.length < 7 then .error .tooShort span
       else if span.length ≠ 7 + (span.getD 3 0).toNat then .error .lengthMismatch span
       else if span.getD 0 0 ≠ 0x02#8 then .error .invalidStart span
       else if span.getD (6 + (span.getD 3 0).toNat) 0 ≠ 0x03#8 then .error .endMarkerMismatch span
       else if (crc16 (span.take (4 + (span.getD 3 0).toNat))).toNat ≠
           256 * (span.getD (4 + (span.getD 3 0).toNat) 0).toNat + (span.getD (5 + (span.getD 3 0).toNat) 0).toNat
         then .error .crcMismatch span
       else .ok (.frame
         { senderId := span.getD 1 0, command := span.getD 2 0, length := span.getD 3 0,
           payload := (span.drop 4).take (span.getD 3 0).toNat,
           crc := crc16 (span.take (4 + (span.getD 3 0).toNat)) })] }

/-- `FDEC` answers a frame exactly on the bytes of a frame record whose length and CRC are right, registered or not
(43_frame_codec.md section 2). -/
def Obligations.FdecAcceptsExactlyFrames : Prop :=
  ∀ (span : Bytes) (f : Frame) (s : State),
    exec (.fdec span) s = .next { s with responses := s.responses ++ [.ok (.frame f)] } ↔
      span = frameBytes f ∧ f.payload.length = f.length.toNat ∧
        f.crc = crc16 ([0x02#8, f.senderId, f.command, f.length] ++ f.payload)

/-- The frame round trip (43_frame_codec.md section 3, marked derived): for a registered command, every sender and every
payload of the registered length or empty, `FENC` gives bytes from which `FDEC` gives back sender, command, the payload
(zero filled where it was empty) and the CRC. -/
def Obligations.FrameRoundTrip : Prop :=
  ∀ (sender command n : Byte) (payload : Bytes) (s : State), registryLookup s.cfg.registry command = some n →
    payload = [] ∨ payload.length = n.toNat →
    ∃ f : Bytes,
      exec (.fenc sender command payload) s = .next { s with responses := s.responses ++ [.ok (.bytes f)] } ∧
      exec (.fdec f) s = .next { s with responses := s.responses ++ [.ok (.frame
        { senderId := sender, command := command, length := n, payload := filled n payload,
          crc := crc16 ([0x02#8, sender, command, n] ++ filled n payload) })] }

/-- A single flipped payload bit is always reported by `FDEC` as `CrcMismatch` (43_frame_codec.md section 3, marked
derived). -/
def Obligations.FdecReportsFlippedPayloadBit : Prop :=
  ∀ (sender command n : Byte) (payload f : Bytes) (s : State) (i k : Nat),
    registryLookup s.cfg.registry command = some n →
    exec (.fenc sender command payload) s = .next { s with responses := s.responses ++ [.ok (.bytes f)] } →
    i < n.toNat → k < 8 →
    exec (.fdec (flipBit f (4 + i) k)) s =
      .next { s with responses := s.responses ++ [.error .crcMismatch (flipBit f (4 + i) k)] }

/-! ### Stream Reassembler -/

/-- R150 to R158: `RXFEED` (opcode 0x40) appends the whole chunk, runs the parse loop, whose steps the relation writes
out and which leave no choice, and answers `OK` with the ordered outcomes; nothing but the buffer and the responses
changes. -/
def Obligations.RxfeedRunsParseLoop : Prop :=
  (∀ chunk : Bytes, decode { op := 0x40#8, operands := .chunk chunk } = .ok (.rxfeed chunk)) ∧
  ∀ (chunk : Bytes) (s : State), chunk.length ≤ s.cfg.feedMax →
    ∃ (out : List RxOutcome) (left : Bytes),
      exec (.rxfeed chunk) s =
        .next { s with buf := left, responses := s.responses ++ [.ok (.outcomes out)] } ∧
      ∀ out' left', RxLoop s.cfg.registry (s.buf ++ chunk) out' left' ↔ out' = out ∧ left' = left

/-- R76: a chunk longer than FEED_MAX is no request of the block; the model refuses it at every state. -/
def Obligations.OversizedChunkIsRefused : Prop :=
  ∀ (chunk : Bytes) (s : State), s.cfg.feedMax < chunk.length → exec (.rxfeed chunk) s = .refused .chunkTooLong

/-- The loop ends with at most `floor(k / 7) + 1` outcomes on `k` buffered bytes (44_reassembler.md section 2, marked
derived). -/
def Obligations.RxfeedOutcomeCountIsBounded : Prop :=
  ∀ (chunk : Bytes) (s t : State) (out : List RxOutcome), exec (.rxfeed chunk) s = .next t →
    t.responses = s.responses ++ [.ok (.outcomes out)] →
    out.length ≤ (s.buf.length + chunk.length) / 7 + 1

/-- R161: a request emits zero or more frames and then at most one error, the last outcome; after an error the buffer
is empty. -/
def Obligations.RxfeedErrorIsLastAndClears : Prop :=
  ∀ (chunk : Bytes) (s t : State), exec (.rxfeed chunk) s = .next t →
    ∃ fs : List Frame,
      t.responses = s.responses ++ [.ok (.outcomes (fs.map .frame))] ∨
      (∃ k d, t.responses = s.responses ++ [.ok (.outcomes (fs.map .frame ++ [.error k d]))] ∧ t.buf = [])

/-- `RXFEED` emits only the four stream errors, with the codes 0x01 to 0x04 (44_reassembler.md section 4, marked
derived). -/
def Obligations.RxfeedEmitsOnlyStreamErrors : Prop :=
  ∀ (chunk : Bytes) (s t : State) (out : List RxOutcome) (k : ErrorKind) (d : Bytes),
    exec (.rxfeed chunk) s = .next t → t.responses = s.responses ++ [.ok (.outcomes out)] → .error k d ∈ out →
    (k = .invalidStart ∨ k = .undefinedCommand ∨ k = .endMarkerMismatch ∨ k = .crcMismatch) ∧
      1 ≤ (outcomeCode (.error k d)).toNat ∧ (outcomeCode (.error k d)).toNat ≤ 4

/-- After every `RXFEED`, from any buffer at all, the buffer is in a rest state and holds at most 261 bytes
(44_reassembler.md section 3, marked derived). -/
def Obligations.RxfeedLeavesRestState : Prop :=
  ∀ (chunk : Bytes) (s t : State), exec (.rxfeed chunk) s = .next t →
    RestInvariant t.cfg.registry t.buf ∧ t.buf.length ≤ 261

/-- A build with room for `261 + FEED_MAX` bytes never overflows: at a rest state, the kept bytes and a whole chunk fit
(10_state.md section 1; 70_reset_and_hazards.md section 2). -/
def Obligations.BufferFitsTheStatedRoom : Prop :=
  ∀ (chunk : Bytes) (s t : State), RestInvariant s.cfg.registry s.buf → exec (.rxfeed chunk) s = .next t →
    (s.buf ++ chunk).length ≤ 261 + s.cfg.feedMax

/-- A wait is never an error (44_reassembler.md section 3). When the buffer with its chunk is a rest state, `RXFEED` emits nothing and keeps
every byte; an empty chunk at a rest state therefore changes nothing. -/
def Obligations.RxfeedWaitsWithoutOutcome : Prop :=
  ∀ (chunk : Bytes) (s : State), chunk.length ≤ s.cfg.feedMax → RestInvariant s.cfg.registry (s.buf ++ chunk) →
    exec (.rxfeed chunk) s =
      .next { s with buf := s.buf ++ chunk, responses := s.responses ++ [.ok (.outcomes [])] }

/-- R165: `LEN` is never compared with the registered length. Two registries that register the same commands give the
same outcomes and the same buffer, whatever lengths they register; and a lone frame with a registered command and the
right CRC is emitted whatever its `LEN`. -/
def Obligations.LenIsNotComparedWithRegistry : Prop :=
  (∀ (chunk : Bytes) (s : State) (reg : Registry), chunk.length ≤ s.cfg.feedMax →
    (∀ c, (registryLookup reg c).isSome = (registryLookup s.cfg.registry c).isSome) →
    ∃ (out : List RxOutcome) (left : Bytes),
      exec (.rxfeed chunk) s =
        .next { s with buf := left, responses := s.responses ++ [.ok (.outcomes out)] } ∧
      exec (.rxfeed chunk) { s with cfg := { s.cfg with registry := reg } } =
        .next { s with
          cfg := { s.cfg with registry := reg }, buf := left, responses := s.responses ++ [.ok (.outcomes out)] }) ∧
  (∀ (f : Frame) (s : State), ReceivableFrame s.cfg.registry f → (frameBytes f).length ≤ s.cfg.feedMax → s.buf = [] →
    exec (.rxfeed (frameBytes f)) s =
      .next { s with responses := s.responses ++ [.ok (.outcomes [.frame f])] })

/-- Chunking does not matter for a clean stream (44_reassembler.md section 5, marked derived): receivable frames, cut
into chunks in any way and fed in order by the instance's feeder, come out as exactly those frames, and the buffer ends
empty. -/
def Obligations.ChunkingOfCleanStreamDoesNotMatter : Prop :=
  ∀ (fs : List Frame) (chunks : List Bytes) (q : Nat) (s : State),
    (∀ f ∈ fs, ReceivableFrame s.cfg.registry f) → (∀ c ∈ chunks, c.length ≤ s.cfg.feedMax) →
    chunks.flatten = (fs.map frameBytes).flatten → s.buf = [] → (s.feeder = none ∨ s.feeder = some q) →
    s.port = chunks.map (fun c => .request q { op := 0x40#8, operands := .chunk c }) →
    ∃ t : State, Host.Core.run Sys2Proof.core chunks.length s = .next t ∧ t.buf = [] ∧ t.port = [] ∧ t.cfg = s.cfg ∧
      ∃ rs : List Response, rs.length = chunks.length ∧ t.responses = s.responses ++ rs ∧
        outcomesOf rs = fs.map .frame

/-- Chunking matters once a stream holds an error (44_reassembler.md section 5, marked derived): a bad byte and a
heartbeat in one chunk lose the frame; in two chunks the frame is kept. -/
def Obligations.ChunkingMattersAfterError : Prop :=
  ∀ s : State, s.buf = [] → 8 ≤ s.cfg.feedMax → registryLookup s.cfg.registry 0x0F#8 = some 0x00#8 →
    exec (.rxfeed [0xFF#8, 0x02#8, 0x01#8, 0x0F#8, 0x00#8, 0xCA#8, 0x66#8, 0x03#8]) s =
      .next { s with responses := s.responses ++ [.ok (.outcomes
        [.error .invalidStart [0xFF#8, 0x02#8, 0x01#8, 0x0F#8, 0x00#8, 0xCA#8, 0x66#8, 0x03#8]])] } ∧
    exec (.rxfeed [0xFF#8]) s =
      .next { s with responses := s.responses ++ [.ok (.outcomes [.error .invalidStart [0xFF#8]])] } ∧
    exec (.rxfeed [0x02#8, 0x01#8, 0x0F#8, 0x00#8, 0xCA#8, 0x66#8, 0x03#8]) s =
      .next { s with responses := s.responses ++ [.ok (.outcomes
        [.frame { senderId := 0x01#8, command := 0x0F#8, length := 0x00#8, payload := [], crc := 0xCA66#16 }])] }

/-- A lost byte can cost the next frame (44_reassembler.md section 5, marked derived): with the first heartbeat's byte
0x66 lost, the next heartbeat's start byte completes the span, and both are lost. -/
def Obligations.LostByteCostsNextFrame : Prop :=
  ∀ s : State, s.buf = [0x02#8, 0x01#8, 0x0F#8, 0x00#8, 0xCA#8, 0x03#8] → 7 ≤ s.cfg.feedMax →
    registryLookup s.cfg.registry 0x0F#8 = some 0x00#8 →
    exec (.rxfeed [0x02#8, 0x01#8, 0x0F#8, 0x00#8, 0xCA#8, 0x66#8, 0x03#8]) s =
      .next { s with buf := [], responses := s.responses ++ [.ok (.outcomes
        [.error .endMarkerMismatch [0x02#8, 0x01#8, 0x0F#8, 0x00#8, 0xCA#8, 0x03#8, 0x02#8]])] }

/-- Recovery is clean (44_reassembler.md section 3): after a request that emitted an error, the next chunk's frame is
received as from an empty buffer. -/
def Obligations.RecoveryAfterErrorIsClean : Prop :=
  ∀ (chunk : Bytes) (s t : State) (out : List RxOutcome) (k : ErrorKind) (d : Bytes) (f : Frame),
    exec (.rxfeed chunk) s = .next t → t.responses = s.responses ++ [.ok (.outcomes out)] → .error k d ∈ out →
    ReceivableFrame s.cfg.registry f → (frameBytes f).length ≤ s.cfg.feedMax →
    exec (.rxfeed (frameBytes f)) t = .next { t with responses := t.responses ++ [.ok (.outcomes [.frame f])] }

/-- A single flipped payload bit of a frame is always reported by `RXFEED` as `CrcMismatch` with the whole span (the
document's CRC mismatch property, 95_test_vectors.md section 1). -/
def Obligations.RxfeedReportsFlippedPayloadBit : Prop :=
  ∀ (f : Frame) (s : State) (i k : Nat), ReceivableFrame s.cfg.registry f →
    (frameBytes f).length ≤ s.cfg.feedMax → s.buf = [] → i < f.length.toNat → k < 8 →
    exec (.rxfeed (flipBit (frameBytes f) (4 + i) k)) s =
      .next { s with responses := s.responses ++
        [.ok (.outcomes [.error .crcMismatch (flipBit (frameBytes f) (4 + i) k)])] }

/-- The frame the loop emits is the one `FDEC` reads from the same bytes (44_reassembler.md section 2, the part marked
derived). -/
def Obligations.LoopFrameIsFdecFrame : Prop :=
  ∀ (reg : Registry) (buf : Bytes) (f : Frame) (total : Nat) (s : State), scanFront reg buf = .accept f total →
    exec (.fdec (buf.take total)) s = .next { s with responses := s.responses ++ [.ok (.frame f)] }

/-- The rest states are the buffers whose parse state is Seeking, HeaderPartial or BodyPartial (10_state.md section 4,
marked derived). -/
def Obligations.RestStatesAreWaitingParseStates : Prop :=
  ∀ (reg : Registry) (buf : Bytes),
    RestInvariant reg buf ↔
      parseState reg buf = .seeking ∨ parseState reg buf = .headerPartial ∨ parseState reg buf = .bodyPartial

/-! ### The port, errors and reset -/

/-- The record of each row of the opcode map (30_encoding.md section 3), the opcode written out, decodes to the row's
instruction. The last clause, that the table's bare opcode word decodes to it with zero operands, is the model's choice,
log entry 7: the spec gives a bare opcode no operands. -/
def Obligations.OpcodeMapDecodes : Prop :=
  decode { op := 0x01#8, operands := .data [0x02#8] } = .ok (.crc16 [0x02#8]) ∧
  decode { op := 0x10#8, operands := .v (-5#32) } = .ok (.smenc (-5#32)) ∧
  decode { op := 0x11#8, operands := .b 0x85#8 } = .ok (.smdec 0x85#8) ∧
  decode { op := 0x20#8, operands := .cmd 0x0F#8 } = .ok (.reglen 0x0F#8) ∧
  decode { op := 0x30#8, operands := .frame 0x01#8 0x0F#8 [] } = .ok (.fenc 0x01#8 0x0F#8 []) ∧
  decode { op := 0x31#8, operands := .span [0x02#8] } = .ok (.fdec [0x02#8]) ∧
  decode { op := 0x40#8, operands := .chunk [0x02#8] } = .ok (.rxfeed [0x02#8]) ∧
  [0x01, 0x10, 0x11, 0x20, 0x30, 0x31, 0x40].map (decodeTableWord 8) =
    [some (.crc16 []), some (.smenc 0#32), some (.smdec 0#8), some (.reglen 0#8), some (.fenc 0#8 0#8 []),
     some (.fdec []), some (.rxfeed [])]

/-- The encoder and the decoder are inverse to each other on the records of R73: every instruction is read back with
every operand, and every record that decodes is the record of what it decodes to (30_encoding.md section 3). -/
def Obligations.DecodeInvertsEncode : Prop :=
  (∀ i : Instr, decode (encode i) = .ok i) ∧ (∀ (r : Request) (i : Instr), decode r = .ok i → encode i = r)

/-- R75, R191: a request whose opcode is none of the seven, with any operands and from anyone, is answered with
`IllegalOperation` and no bytes, and changes no state; 249 opcodes are such. -/
def Obligations.UnassignedOpcodeIsAnswered : Prop :=
  (∀ (op : Byte) (operands : Operands) (q : Nat) (rest : List PortInput) (s : State),
    op ∉ [0x01#8, 0x10#8, 0x11#8, 0x20#8, 0x30#8, 0x31#8, 0x40#8] →
    s.port = .request q { op := op, operands := operands } :: rest →
    step s = .next { s with port := rest, responses := s.responses ++ [.error .illegalOperation []] }) ∧
  ((List.range 256).filter fun n => (opOf (BitVec.ofNat 8 n)).isNone).length = 249

/-- A step serves the decoded request: when the input at the head of the port is a record that decodes to `i`, and the
requester may feed, the step is `exec i` at the state with that input taken off the port and, for `RXFEED`, the feeder
noted (20_memory.md sections 3 and 4; the feeder is the model's, log entry 6). -/
def Obligations.StepServesDecodedRequest : Prop :=
  ∀ (q : Nat) (r : Request) (rest : List PortInput) (i : Instr) (s : State),
    s.port = .request q r :: rest → decode r = .ok i →
    (feeds i = true → s.feeder = none ∨ s.feeder = some q) →
    step s = exec i { s with port := rest, feeder := if feeds i then some q else s.feeder }

/-- A second requester's `RXFEED` is refused (20_memory.md section 4, 70_reset_and_hazards.md section 4; how the model
knows a requester is log entry 6). -/
def Obligations.SecondFeederIsRefused : Prop :=
  ∀ (p q : Nat) (chunk : Bytes) (rest : List PortInput) (s : State), s.feeder = some p → p ≠ q →
    s.port = .request q { op := 0x40#8, operands := .chunk chunk } :: rest → step s = .refused .secondFeeder

/-- With nothing arrived a step changes nothing (60_exceptions.md section 6: between requests the block holds its
buffer; that the model takes an idle step is log entry 4). -/
def Obligations.IdleBlockHoldsItsState : Prop :=
  ∀ s : State, s.port = [] → step s = .next s

/-- R210: the reset input sets the buffer to empty and changes nothing else; no outcome is produced. -/
def Obligations.ResetInputClearsBufferOnly : Prop :=
  ∀ (s : State) (rest : List PortInput), s.port = .reset :: rest →
    ∃ t : State, step s = .next t ∧ t = { s with port := rest, buf := [] } ∧ parseState t.cfg.registry t.buf = .seeking

/-- R30, R7: after boot and reset the buffer is empty, its parse state is Seeking, the configuration is the one loaded,
whichever that is, no response stands, the next checksum starts from 0x0000, and the constants have their values. -/
def Obligations.ResetStateHasEmptyBuffer : Prop :=
  (∀ cfg : Config, (State.resetWith cfg).buf = [] ∧ (State.resetWith cfg).cfg = cfg ∧
    parseState cfg.registry (State.resetWith cfg).buf = .seeking ∧ (State.resetWith cfg).responses = []) ∧
  State.reset = State.resetWith State.reset.cfg ∧ crc16 [] = CRC_INIT ∧
  (START, END, POLY, CRC_INIT) = (0x02#8, 0x03#8, 0x1021#16, 0x0000#16) ∧
  (HDR_LEN, OVERHEAD, DIAG_MAX, SM_MAX) = (4, 7, 10, (127 : Int))

/-- The invariant holds after reset under every legal configuration (70_reset_and_hazards.md section 1, marked
derived). -/
def Obligations.ResetStateSatisfiesInvariant : Prop :=
  (∀ cfg : Config, cfg.wf = true → Inv (State.resetWith cfg)) ∧ Inv State.reset

/-- Every step keeps the invariant: a legal configuration, a buffer in a rest state, an unfed instance with nothing in
its buffer, and only responses that the error table allows (10_state.md section 4; 60_exceptions.md section 1). -/
def Obligations.StepKeepsInvariant : Prop :=
  ∀ s s' : State, Inv s → step s = .next s' → Inv s'

/-- Only `RXFEED` and reset write the buffer, and only by append, drop from the front, and clear (10_state.md
section 1). -/
def Obligations.OnlyFeedAndResetWriteBuffer : Prop :=
  ∀ s s' : State, step s = .next s' → s'.buf ≠ s.buf →
    (∃ rest, s.port = .reset :: rest ∧ s'.buf = []) ∨
    (∃ q chunk rest n, s.port = .request q { op := 0x40#8, operands := .chunk chunk } :: rest ∧
      s'.buf = (s.buf ++ chunk).drop n)

/-- R49: `CRC16`, `SMENC`, `SMDEC`, `REGLEN`, `FENC` and `FDEC` read no mutable state and write none: at any two states
of one configuration they give one and the same response, and change nothing but the responses. `RXFEED` is not idempotent:
some chunk fed twice gives different outcomes. -/
def Obligations.NonFeedingRequestsAreStateless : Prop :=
  (∀ (i : Instr) (s s' : State), (∀ chunk, i ≠ .rxfeed chunk) → s'.cfg = s.cfg →
    ∃ r : Response, exec i s = .next { s with responses := s.responses ++ [r] } ∧
      exec i s' = .next { s' with responses := s'.responses ++ [r] }) ∧
  ∃ (chunk : Bytes) (s t u : State) (out out' : List RxOutcome),
    exec (.rxfeed chunk) s = .next t ∧ t.responses = s.responses ++ [.ok (.outcomes out)] ∧
    exec (.rxfeed chunk) t = .next u ∧ u.responses = t.responses ++ [.ok (.outcomes out')] ∧ out ≠ out'

/-- The frame of `RXFEED`: its response is appended, the buffer may change, nothing else does (44_reassembler.md
section 1). -/
def Obligations.RxfeedChangesOnlyBufferAndResponses : Prop :=
  ∀ (chunk : Bytes) (s t : State), exec (.rxfeed chunk) s = .next t →
    t.cfg = s.cfg ∧ t.feeder = s.feeder ∧ t.port = s.port ∧
      ∃ out, t.responses = s.responses ++ [.ok (.outcomes out)]

/-- Every request of the interface is answered (70_reset_and_hazards.md section 3): when the head of the port is reset,
or a request with an unassigned opcode, or the record of a well-formed instruction from a requester that may feed, the
step takes it off the port, and a request gets exactly one response, after all earlier ones. -/
def Obligations.EveryLegalInputCompletes : Prop :=
  (∀ (rest : List PortInput) (s : State), s.port = .reset :: rest →
    ∃ t, step s = .next t ∧ t.port = rest ∧ t.responses = s.responses) ∧
  (∀ (q : Nat) (r : Request) (rest : List PortInput) (s : State), s.port = .request q r :: rest →
    (opOf r.op = none ∨
      ∃ i, r = encode i ∧ i.wf s.cfg.feedMax = true ∧ (feeds i = true → s.feeder = none ∨ s.feeder = some q)) →
    ∃ t a, step s = .next t ∧ t.port = rest ∧ t.responses = s.responses ++ [a])

/-- The outcome codes (60_exceptions.md section 1): the code of every kind, and OK for success and for a frame; no two kinds share a code. -/
def Obligations.OutcomeCodes : Prop :=
  [ErrorKind.invalidStart, .undefinedCommand, .endMarkerMismatch, .crcMismatch, .tooShort, .lengthMismatch,
    .payloadLengthMismatch, .unknownCommand, .rangeError, .illegalOperation].map errorCode =
      [0x01#8, 0x02#8, 0x03#8, 0x04#8, 0x05#8, 0x06#8, 0x07#8, 0x08#8, 0x09#8, 0x0A#8] ∧
  (∀ r, responseCode (.ok r) = 0x00#8) ∧ (∀ k d, responseCode (.error k d) = errorCode k) ∧
  (∀ f, outcomeCode (.frame f) = 0x00#8) ∧ (∀ k d, outcomeCode (.error k d) = errorCode k) ∧
  (∀ k k', errorCode k = errorCode k' → k = k')

/-- Instances are independent and share only the registry (10_state.md section 6, 60_exceptions.md section 6): the
instance that steps goes to what its own step answers, whatever the others hold, every other stays as it is, and the
registry stays shared; and its step is taken whenever it answers. That the instances are a list of which one is stepped
from outside is the model's choice, log entry 12. -/
def Obligations.SessionsAreIndependent : Prop :=
  (∀ (reg : Registry) (instances instances' : List State) (k : Nat), sharedRegistry reg instances →
    stepInstance k instances = .next instances' →
    sharedRegistry reg instances' ∧ instances'.length = instances.length ∧
      (∀ j, j ≠ k → instances'[j]? = instances[j]?) ∧
      ∀ s, instances[k]? = some s → ∃ s', step s = .next s' ∧ instances'[k]? = some s') ∧
  (∀ (instances : List State) (k : Nat) (s s' : State), instances[k]? = some s → step s = .next s' →
    ∃ instances', stepInstance k instances = .next instances')

/-- The syntax of requests reads back (30_encoding.md section 4): the canonical line of every request, with every
operand, parses to that request, also behind a label. Which line is the canonical one and which characters a label may
have are the model's choice, log entry 8: the spec fixes neither. -/
def Obligations.RequestSyntaxRoundTrip : Prop :=
  ∀ i : Instr, parseLine (writeLine i) = some i ∧
    ∀ label : List Char, label ≠ [] → (∀ c ∈ label, isWordChar c = true) →
      parseLine (label ++ ':' :: ' ' :: writeLine i) = some i
end

