-- ==== Sys2Proof/Laws/Asm.lean ====
section
/-! SUPPORT. Laws of the request syntax: how the reader takes a line apart, and that the bytes and the numbers the
writer writes read back. -/

namespace Sys2Proof.Machine

open Sys2Proof

theorem lexLine_nil (acc) : lexLine acc [] = some (flushWord acc []) := by simp [lexLine]

theorem wordChar_ne_dash {c : Char} (h : isWordChar c = true) : c ≠ '-' := by rintro rfl; revert h; decide

theorem lexLine_char (acc cs) {c : Char} (hc : ∀ cs', c :: cs ≠ '-' :: '-' :: cs') : lexLine acc
    (c :: cs) = if isWordChar c then lexLine (c :: acc) cs
    else if c = ' ' then (lexLine [] cs).map (flushWord acc)
    else
      match punctuation c with
      | none => none
      | some t => (lexLine [] cs).map fun toks => flushWord acc (t :: toks) := by
  rw [lexLine.eq_def]
  split
  · rename_i h; cases h
  · rename_i h; exact absurd h (hc _)
  · rename_i h; injection h with h1 h2; subst h1 h2; rfl

theorem lexLine_wordChars (w : List Char) (acc cs) (hw : ∀ c ∈ w, isWordChar c = true) : lexLine acc
    (w ++ cs) = lexLine (w.reverse ++ acc) cs := by
  induction w generalizing acc with
  | nil => rfl
  | cons c w ih =>
    have h1 := hw c List.mem_cons_self
    rw [List.cons_append,
      lexLine_char _ _ (by intro cs' h; injection h with h _; exact wordChar_ne_dash h1 h), if_pos h1,
      ih _ (fun d hd => hw d (List.mem_cons_of_mem _ hd))]
    simp

theorem lexLine_space (acc cs) : lexLine acc (' ' :: cs) = (lexLine [] cs).map (flushWord acc) := by
  rw [lexLine_char _ _ (by intro cs' h; injection h with h _; revert h; decide)]; rfl

theorem lexLine_punctuation (acc cs) {c : Char} {t : Tok} (hc : c ≠ '-') (hw : isWordChar c = false)
    (hs : c ≠ ' ') (ht : punctuation c = some t) : lexLine acc (c :: cs) =
    (lexLine [] cs).map fun toks => flushWord acc (t :: toks) := by
  rw [lexLine_char _ _ (by intro cs' h; injection h with h _; exact hc h), hw, ht]
  simp [hs]

theorem lexLine_dash (acc cs) (h : ∀ cs', cs ≠ '-' :: cs') : lexLine acc ('-' :: cs) =
    (lexLine [] cs).map fun toks => flushWord acc (.dash :: toks) := by
  rw [lexLine_char _ _ (by intro cs' h'; injection h' with _ h'; exact h _ h')]; rfl

theorem flushWord_reverse {w : List Char} (hw : w ≠ []) (toks) : flushWord (w.reverse ++ []) toks =
    .word w :: toks := by
  rw [List.append_nil]
  cases h : w.reverse with
  | nil => simp at h; exact absurd h hw
  | cons c cs => rw [flushWord, ← h, List.reverse_reverse]

theorem lexLine_word_punctuation {w : List Char} (hne : w ≠ []) (hw : ∀ c ∈ w, isWordChar c = true)
    {c : Char} {t : Tok} (cs toks) (hc : c ≠ '-') (hwc : isWordChar c = false) (hs : c ≠ ' ')
    (ht : punctuation c = some t) (h : lexLine [] cs = some toks) :
    lexLine [] (w ++ c :: cs) = some (.word w :: t :: toks) := by
  rw [lexLine_wordChars _ _ _ hw, lexLine_punctuation _ _ hc hwc hs ht, h, Option.map_some,
    flushWord_reverse hne]

theorem lexLine_word_space {w : List Char} (hne : w ≠ []) (hw : ∀ c ∈ w, isWordChar c = true) (cs toks)
    (h : lexLine [] cs = some toks) :
    lexLine [] (w ++ ' ' :: cs) = some (.word w :: toks) := by
  rw [lexLine_wordChars _ _ _ hw, lexLine_space, h, Option.map_some, flushWord_reverse hne]

theorem lexLine_word_end {w : List Char} (hne : w ≠ []) (hw : ∀ c ∈ w, isWordChar c = true) :
    lexLine [] w = some [.word w] := by
  conv_lhs => rw [← List.append_nil w]
  rw [lexLine_wordChars _ _ _ hw, lexLine_nil, flushWord_reverse hne]

theorem hexChar_spec (d : Nat) (h : d < 16) : hexDigit (hexChar d) = some d ∧ isWordChar (hexChar d) =
    true := by
  have : ∀ d : Fin 16, hexDigit (hexChar d.val) = some d.val ∧ isWordChar (hexChar d.val) = true := by decide
  exact this ⟨d, h⟩

theorem writePair_word (b : Byte) : ∀ c ∈ writePair b, isWordChar c = true := by
  have hb := b.isLt
  intro c hc
  simp [writePair] at hc
  rcases hc with rfl | rfl
  · exact (hexChar_spec _ (by omega)).2
  · exact (hexChar_spec _ (by omega)).2

theorem hexPair_writePair (b : Byte) : hexPair (hexChar (b.toNat / 16)) (hexChar (b.toNat % 16)) = some b := by
  have hb := b.isLt
  unfold hexPair
  rw [(hexChar_spec _ (by omega)).1, (hexChar_spec _ (by omega)).1]
  simp only
  rw [Nat.div_add_mod]; simp

theorem listByte_writePair (b : Byte) : listByte (writePair b) = some b := hexPair_writePair b

theorem writeByte_word (b : Byte) : ∀ c ∈ writeByte b, isWordChar c = true := by
  intro c hc
  rcases List.mem_cons.mp hc with rfl | hc
  · decide
  rcases List.mem_cons.mp hc with rfl | hc
  · decide
  · exact writePair_word b c hc

theorem hexByte_writeByte (b : Byte) : hexByte (writeByte b) = some b := hexPair_writePair b

theorem hexChar_decimal (d : Nat) (h : d < 10) : decDigit (hexChar d) = some d ∧ isWordChar (hexChar d) =
    true := by
  have : ∀ d : Fin 10, decDigit (hexChar d.val) = some d.val ∧ isWordChar (hexChar d.val) = true := by decide
  exact this ⟨d, h⟩

theorem parseDigits_append (a b : List Char) (acc n : Nat) (h : parseDigits acc a = some n) :
    parseDigits acc (a ++ b) = parseDigits n b := by
  induction a generalizing acc with
  | nil => injection h with h; subst h; rfl
  | cons c a ih =>
    rw [List.cons_append, parseDigits]
    rw [parseDigits] at h
    cases hd : decDigit c with
    | none => simp [hd] at h
    | some d => simp only [hd] at h ⊢; exact ih _ h

theorem parseDigits_writeDigits (k n acc : Nat) : parseDigits acc (writeDigits k n) = some
    (acc * 10 ^ k + n % 10 ^ k) := by
  induction k generalizing n with
  | zero => simp [writeDigits, parseDigits, Nat.mod_one]
  | succ k ih =>
    rw [writeDigits, parseDigits_append _ _ _ _ (ih (n / 10)), parseDigits,
      (hexChar_decimal _ (Nat.mod_lt n (by omega))).1]
    simp only [parseDigits]
    congr 1
    have h1 : n % 10 ^ (k + 1) = n % 10 + 10 * (n / 10 % 10 ^ k) := by rw [Nat.pow_succ', Nat.mod_mul]
    rw [h1, Nat.pow_succ']
    generalize 10 ^ k = P
    ring

theorem writeDigits_word (k n : Nat) : ∀ c ∈ writeDigits k n, isWordChar c = true := by
  induction k generalizing n with
  | zero => simp [writeDigits]
  | succ k ih =>
    intro c hc
    rw [writeDigits] at hc
    rcases List.mem_append.mp hc with hc | hc
    · exact ih _ c hc
    · rw [List.mem_singleton.mp hc]; exact (hexChar_decimal _ (Nat.mod_lt n (by omega))).2

theorem lt_pow_digitCount (k n : Nat) (h : n < 10 ^ k) : n < 10 ^ digitCount k n := by
  induction k generalizing n with
  | zero => simpa [digitCount] using h
  | succ k ih =>
    rw [digitCount]
    split
    · simp_all
    · have := ih (n / 10) (by rw [Nat.pow_succ'] at h; omega)
      rw [Nat.pow_succ']; omega

theorem parseDigits_writeNat (n : Nat) (h : n < 10 ^ 10) : parseDigits 0 (writeNat n) = some n := by
  rw [writeNat, parseDigits_writeDigits]
  have h1 := lt_pow_digitCount 10 n h
  have h2 : 10 ^ digitCount 10 n ≤ 10 ^ max 1 (digitCount 10 n) := Nat.pow_le_pow_right (by omega) (le_max_right _ _)
  rw [Nat.mod_eq_of_lt (by omega)]; simp

theorem writeNat_ne_nil (n : Nat) : writeNat n ≠ [] := by
  rw [writeNat]
  obtain ⟨k, hk⟩ : ∃ k, max 1 (digitCount 10 n) = k + 1 := ⟨max 1 (digitCount 10 n) - 1, by omega⟩
  rw [hk, writeDigits]; simp

end Sys2Proof.Machine
end

