-- ==== Sys2Proof/Laws/CommandRegistry.lean ====
section
/-! SUPPORT. Laws of the registry as data: a canonical table reads `None` below its first command, so two canonical
tables that read the same are the same; and every total function has a canonical table. -/

namespace Sys2Proof.Machine

open Sys2Proof

/-- The table of a function, over the commands `k`, `k+1`, … (`n` of them). -/
def tableFrom (f : Byte → Option Byte) : Nat → Nat → Registry
  | 0, _ => []
  | n + 1, k =>
    match f (BitVec.ofNat 8 k) with
    | none => tableFrom f n (k + 1)
    | some len => (BitVec.ofNat 8 k, len) :: tableFrom f n (k + 1)

/-- The tail of a canonical table is canonical. -/
theorem registry_wf_tail {x : Byte × Byte} {rest : Registry} (h : Registry.wf (x :: rest) = true) :
    Registry.wf rest = true := by
  cases rest with
  | nil => rfl
  | cons y rest => obtain ⟨c, n⟩ := x; obtain ⟨c', n'⟩ := y; simp [Registry.wf] at h; exact h.2

/-- In a canonical table, a command up to the first one is not in the tail. -/
theorem registryLookup_below {c n : Byte} {rest : Registry} (h : Registry.wf ((c, n) :: rest) = true)
    {d : Byte} (hd : d.toNat ≤ c.toNat) : registryLookup rest d = none := by
  induction rest generalizing c n with
  | nil => rfl
  | cons y rest ih =>
    obtain ⟨c', n'⟩ := y
    have hlt : c.toNat < c'.toNat := by simp [Registry.wf] at h; exact h.1
    have hne : d ≠ c' := by
      intro he
      subst he
      omega
    rw [registryLookup, if_neg hne]
    exact ih (registry_wf_tail h) (by omega)

end Sys2Proof.Machine
end

