-- ==== Sys2Proof/Laws/Crc.lean ====
section
/-! SUPPORT. Laws of the CRC step: a round loses nothing, so the checksum separates sequences that differ in one byte;
a byte in the low half is shifted to the high half. -/

namespace Sys2Proof.Machine

open Sys2Proof

/-- The byte of a step stands in bits 15 to 8. -/
theorem getLsbD_highByte (b : Byte) (i : Nat) :
    ((b.setWidth 16 : Word16) <<< 8).getLsbD i = (decide (8 ≤ i) && decide (i < 16) && b.getLsbD (i - 8)) := by
  simp only [BitVec.getLsbD_shiftLeft, BitVec.getLsbD_setWidth]
  by_cases h8 : 8 ≤ i <;> by_cases h16 : i < 16 <;> simp [h8, h16]
  simp [show ¬ i < 8 by omega, show i - 8 < 16 by omega]

/-- Only a round that XORed in POLY leaves bit 0 set. -/
theorem crcRound_bit_zero (w : Word16) : (crcRound w).getLsbD 0 = w.msb := by
  unfold crcRound
  cases w.msb <;> simp [POLY]

theorem crcRound_injective {w w' : Word16} (h : crcRound w = crcRound w') : w = w' := by
  have hm : w.msb = w'.msb := by rw [← crcRound_bit_zero, ← crcRound_bit_zero, h]
  have hs : w <<< 1 = w' <<< 1 := by
    unfold crcRound at h
    rw [← hm] at h
    cases hw : w.msb <;> simpa [hw] using h
  ext i hi
  by_cases h15 : i = 15
  · subst h15
    simpa [BitVec.msb_eq_getLsbD_last, BitVec.getLsbD_eq_getElem] using hm
  · have := congrArg (fun v : Word16 => v.getLsbD (i + 1)) hs
    simpa [BitVec.getLsbD_shiftLeft, show i + 1 < 16 by omega, BitVec.getLsbD_eq_getElem hi] using this

theorem crcRounds_injective (n : Nat) {w w' : Word16} (h : crcRounds n w = crcRounds n w') : w = w' := by
  induction n generalizing w w' with
  | zero => exact h
  | succ n ih => exact crcRound_injective (ih h)

theorem crcStep_acc_injective {a a' : Word16} (b : Byte) (h : crcStep a b = crcStep a' b) : a = a' :=
  (BitVec.xor_left_inj _).mp (crcRounds_injective 8 h)

theorem crcStep_byte_injective (a : Word16) {b b' : Byte} (h : crcStep a b = crcStep a b') : b = b' := by
  have hx := (BitVec.xor_right_inj _).mp (crcRounds_injective 8 h)
  ext i hi
  have := congrArg (fun v : Word16 => v.getLsbD (i + 8)) hx
  simpa [getLsbD_highByte, show i + 8 < 16 by omega, BitVec.getLsbD_eq_getElem hi] using this

theorem crcFold_acc_injective (data : Bytes) {a a' : Word16}
    (h : data.foldl crcStep a = data.foldl crcStep a') : a = a' := by
  induction data generalizing a a' with
  | nil => exact h
  | cons b rest ih => exact crcStep_acc_injective b (ih h)

/-- Two sequences that differ in exactly one byte have different checksums. -/
theorem crc16_one_byte_changed (pre post : Bytes) {b b' : Byte} (hb : b ≠ b') :
    crc16 (pre ++ b :: post) ≠ crc16 (pre ++ b' :: post) := by
  intro h
  simp only [crc16, List.foldl_append, List.foldl_cons] at h
  exact hb (crcStep_byte_injective _ (crcFold_acc_injective post h))

theorem crc16_append (s t : Bytes) : crc16 (s ++ t) = t.foldl crcStep (crc16 s) := by
  simp [crc16, List.foldl_append]

/-- Eight rounds carry a byte of the low half to the high half: no bit of it reaches bit 15 on the way. -/
theorem crcRounds_low_byte (b : Byte) : crcRounds 8 (b.setWidth 16) = b.setWidth 16 <<< 8 := by
  revert b
  decide

theorem crcRounds_zero (n : Nat) : crcRounds n 0#16 = 0#16 := by
  induction n with
  | zero => rfl
  | succ n ih => exact ih

end Sys2Proof.Machine
end

