-- ==== Sys2Proof/Laws/Decode.lean ====
section
/-! SUPPORT. Laws of the decoder: which opcodes are assigned, and what a record that decodes looks like. -/

namespace Sys2Proof

/-- An assigned opcode is one of the seven of R73. -/
theorem opOf_some {op : Byte} {o : Op} (h : opOf op = some o) : (op, o) ∈ opcodeTable := by
  unfold opOf at h
  generalize opcodeTable = table at h
  induction table with
  | nil => cases h
  | cons row rest ih =>
    obtain ⟨code, o'⟩ := row
    rw [lookupOpcode] at h
    split at h
    · rename_i he
      injection h with h
      subst he h
      exact List.mem_cons_self
    · exact List.mem_cons_of_mem _ (ih h)

/-- A record decodes to an instruction only by its opcode's row and its row's operands. -/
theorem decode_ok {r : Request} {i : Instr} (h : decode r = .ok i) :
    ∃ o, opOf r.op = some o ∧ withOperands o r.operands = some i := by
  unfold decode at h
  cases ho : opOf r.op with
  | none => simp [ho] at h
  | some o =>
    rw [ho] at h
    cases hw : withOperands o r.operands with
    | none => simp [hw] at h
    | some j =>
      simp only [hw, Except.ok.injEq] at h
      exact ⟨o, rfl, h ▸ hw⟩

/-- An unassigned opcode is rejected whatever the operands (R75). -/
theorem decode_unassigned {r : Request} (h : opOf r.op = none) : decode r = .error (.unassignedOpcode r.op) := by
  unfold decode
  rw [h]

end Sys2Proof
end

