-- ==== Sys2Proof/Laws/Ops.lean ====
section
/-! SUPPORT. Laws of the byte-order helpers and of the frame layout: a sequence that holds a whole candidate span is
a start byte, three header bytes, `LEN` payload bytes, two CRC bytes, an end byte and a rest, and each field reader
reads its field there. -/

namespace Sys2Proof.Machine

open Sys2Proof

theorem wordOfBytes_hi_lo (w : Word16) : wordOfBytes (hiByte w) (loByte w) = w := by
  ext i hi
  by_cases h : i < 8
  · simp [wordOfBytes, hiByte, loByte, h, BitVec.getLsbD_eq_getElem hi]
  · simp [wordOfBytes, hiByte, loByte, h, show i - 8 < 8 by omega, show 8 + (i - 8) = i by omega,
      BitVec.getLsbD_eq_getElem hi]

/-- The CRC field is the two bytes put together, the high one first (R43, R63). -/
theorem wordOfBytes_eq_append (hi lo : Byte) : wordOfBytes hi lo = hi ++ lo := by
  unfold wordOfBytes
  apply BitVec.eq_of_getLsbD_eq
  intro i h
  rw [BitVec.getLsbD_append]
  by_cases h8 : i < 8
  · simp [h8, h]
  · simp [h8, h, BitVec.getLsbD_of_ge lo i (by omega)]

theorem shift_eq_hiByte (w : Word16) : (w >>> 8).setWidth 8 = hiByte w := by ext i hi; simp [hiByte]
theorem setWidth_eq_loByte (w : Word16) : w.setWidth 8 = loByte w := by ext i hi; simp [loByte]

theorem hiByte_wordOfBytes (hi lo : Byte) : hiByte (wordOfBytes hi lo) = hi := by
  ext i h
  simp [wordOfBytes, hiByte, show 8 + i < 16 by omega, BitVec.getLsbD_eq_getElem h]

theorem loByte_wordOfBytes (hi lo : Byte) : loByte (wordOfBytes hi lo) = lo := by
  ext i h
  simp [wordOfBytes, loByte, h, show i < 16 by omega]

/-- XORing the high byte of an accumulator into it leaves the low byte alone. -/
theorem xor_hiByte (w : Word16) : w ^^^ ((hiByte w).setWidth 16 <<< 8) = (loByte w).setWidth 16 := by
  ext i hi
  by_cases h : i < 8
  · simp [hiByte, loByte, h, BitVec.getLsbD_eq_getElem hi]
  · simp [hiByte, loByte, h, show i - 8 < 8 by omega, show 8 + (i - 8) = i by omega,
      BitVec.getLsbD_eq_getElem hi]

/-- The layout of R60 with any marker bytes, followed by `rest`. -/
def layout (start senderId command len : Byte) (p : Bytes) (hi lo last : Byte) (rest : Bytes) : Bytes :=
  start :: senderId :: command :: len :: (p ++ hi :: lo :: last :: rest)

/-- Every sequence that holds its candidate span has the layout. -/
theorem layout_of_totalLen_le {buf : Bytes} (h : totalLen buf ≤ buf.length) :
    ∃ start senderId command len p hi lo last rest,
      buf = layout start senderId command len p hi lo last rest ∧ p.length = len.toNat := by
  match buf, h with
  | [], h | [_], h | [_, _], h | [_, _, _], h => simp [totalLen, OVERHEAD] at h <;> omega
  | start :: senderId :: command :: len :: tail, h =>
    have hl : len.toNat + 3 ≤ tail.length := by
      simp [totalLen, OVERHEAD, lenField, byteAt] at h; omega
    match ht : tail.drop len.toNat with
    | [] | [_] | [_, _] =>
      have := congrArg List.length ht
      simp at this; omega
    | hi :: lo :: last :: rest =>
      refine ⟨start, senderId, command, len, tail.take len.toNat, hi, lo, last, rest, ?_, ?_⟩
      · rw [layout, ← ht, List.take_append_drop]
      · simp; omega

section
variable (start senderId command len : Byte) (p : Bytes) (hi lo last : Byte) (rest : Bytes)

theorem byteAt_layout_zero : byteAt (layout start senderId command len p hi lo last rest) 0 = start := rfl
theorem byteAt_layout_one : byteAt (layout start senderId command len p hi lo last rest) 1 = senderId := rfl
theorem byteAt_layout_two : byteAt (layout start senderId command len p hi lo last rest) 2 = command := rfl
theorem byteAt_layout_three : byteAt (layout start senderId command len p hi lo last rest) 3 = len := rfl
theorem lenField_layout : lenField (layout start senderId command len p hi lo last rest) = len.toNat := rfl
theorem totalLen_layout : totalLen (layout start senderId command len p hi lo last rest) = 7 + len.toNat := rfl

variable {p len} (hp : p.length = len.toNat)
include hp

theorem length_layout :
    (layout start senderId command len p hi lo last rest).length = 7 + len.toNat + rest.length := by
  simp [layout, hp]; omega

theorem byteAt_layout_tail (k : Nat) :
    byteAt (layout start senderId command len p hi lo last rest) (4 + len.toNat + k) =
      byteAt (hi :: lo :: last :: rest) k := by
  have h : 4 + len.toNat + k = (p.length + k) + 4 := by omega
  simp [byteAt, layout, h, List.getD_eq_getElem?_getD, List.getElem?_append_right]

theorem crcField_layout :
    crcField (layout start senderId command len p hi lo last rest) = wordOfBytes hi lo := by
  unfold crcField
  rw [lenField_layout, byteAt_layout_tail _ _ _ _ _ _ _ hp 1]
  have := byteAt_layout_tail start senderId command hi lo last rest hp 0
  rw [Nat.add_zero] at this
  rw [this]
  rfl

theorem endField_layout : endField (layout start senderId command len p hi lo last rest) = last := by
  unfold endField
  rw [lenField_layout, byteAt_layout_tail _ _ _ _ _ _ _ hp 2]
  rfl

theorem coveredBytes_layout :
    coveredBytes (layout start senderId command len p hi lo last rest) =
      [start, senderId, command, len] ++ p := by
  unfold coveredBytes
  rw [lenField_layout, ← hp]
  simp [slice, layout, HDR_LEN, Nat.add_comm 4]

theorem frameFields_layout :
    frameFields (layout start senderId command len p hi lo last rest) =
      { senderId := senderId, command := command, length := len, payload := p, crc := wordOfBytes hi lo } := by
  unfold frameFields
  rw [crcField_layout _ _ _ _ _ _ _ hp, lenField_layout, ← hp]
  simp [slice, layout, HDR_LEN, Nat.add_comm 4, byteAt]

theorem take_layout :
    (layout start senderId command len p hi lo last rest).take (7 + len.toNat) =
      layout start senderId command len p hi lo last [] := by
  rw [← hp]
  simp [layout, show 7 + p.length = p.length + 3 + 4 by omega, List.take_append]

theorem drop_layout :
    (layout start senderId command len p hi lo last rest).drop (7 + len.toNat) = rest := by
  rw [← hp]
  simp [layout, show 7 + p.length = p.length + 3 + 4 by omega, List.drop_append]

end

end Sys2Proof.Machine
end

