-- ==== Sys2Proof/Laws/FrameCodec.lean ====
section
/-! SUPPORT. Laws of the frame codec: a built frame has the layout, and what the decoder answers. -/

namespace Sys2Proof.Machine

open Sys2Proof

/-- The frame `FENC` builds has the layout of R60, with the CRC of its covered bytes. -/
theorem buildFrame_layout (senderId command n : Byte) (p : Bytes) :
    buildFrame senderId command n p =
      layout START senderId command n p (hiByte (crc16 ([START, senderId, command, n] ++ p)))
        (loByte (crc16 ([START, senderId, command, n] ++ p))) END [] := by
  simp [buildFrame, frameHead, layout]

/-- What `payloadFor` answers, when it answers: a payload of the registered length. -/
theorem payloadFor_length {n : Byte} {payload p : Bytes} (h : payloadFor n payload = some p) :
    p.length = n.toNat := by
  unfold payloadFor at h
  split at h
  · injection h with h
    subst h
    simp [zeros]
  split at h
  · cases h
  · rename_i hl
    injection h with h
    subst h
    exact not_not.mp hl

/-- What `encodeFrame` answers, when it answers a frame. -/
theorem encodeFrame_ok {reg : Registry} {senderId command : Byte} {payload f : Bytes}
    (h : encodeFrame reg senderId command payload = .ok f) :
    ∃ n p, registryLookup reg command = some n ∧ payloadFor n payload = some p ∧
      f = buildFrame senderId command n p := by
  unfold encodeFrame at h
  cases hr : registryLookup reg command with
  | none => simp [hr] at h
  | some n =>
    rw [hr] at h
    cases hp : payloadFor n payload with
    | none => simp [hp] at h
    | some p =>
      simp only [hp, Except.ok.injEq] at h
      exact ⟨n, p, rfl, hp, h.symm⟩

/-- The only errors of `encodeFrame` (R181). -/
theorem encodeFrame_error {reg : Registry} {senderId command : Byte} {payload : Bytes} {k : ErrorKind}
    (h : encodeFrame reg senderId command payload = .error k) :
    k = .unknownCommand ∨ k = .payloadLengthMismatch := by
  unfold encodeFrame at h
  split at h
  · injection h with h; exact Or.inl h.symm
  · split at h
    · injection h with h; exact Or.inr h.symm
    · cases h

/-- The decoder on a whole layout: only the markers and the CRC are left to check. -/
theorem decodeFrame_layout (start senderId command len : Byte) (p : Bytes) (hi lo last : Byte)
    (hp : p.length = len.toNat) :
    decodeFrame (layout start senderId command len p hi lo last []) =
      if start ≠ START then .error .invalidStart
      else if last ≠ END then .error .endMarkerMismatch
      else if crc16 ([start, senderId, command, len] ++ p) ≠ wordOfBytes hi lo then .error .crcMismatch
      else .ok
        { senderId := senderId, command := command, length := len, payload := p, crc := wordOfBytes hi lo } := by
  have hl := length_layout start senderId command hi lo last [] hp
  simp only [List.length_nil, Nat.add_zero] at hl
  unfold decodeFrame
  rw [if_neg (by rw [hl]; simp [OVERHEAD]), if_neg (by rw [hl, totalLen_layout]; simp), byteAt_layout_zero,
    endField_layout _ _ _ _ _ _ _ hp, coveredBytes_layout _ _ _ _ _ _ _ hp, crcField_layout _ _ _ _ _ _ _ hp,
    frameFields_layout _ _ _ _ _ _ _ hp]

/-- The decoder's two length checks, and the layout of every span that passes them (R130). -/
theorem decodeFrame_cases (span : Bytes) :
    (span.length < 7 ∧ decodeFrame span = .error .tooShort) ∨
    (7 ≤ span.length ∧ span.length ≠ totalLen span ∧ decodeFrame span = .error .lengthMismatch) ∨
    ∃ start senderId command len p hi lo last,
      span = layout start senderId command len p hi lo last [] ∧ p.length = len.toNat := by
  by_cases h7 : span.length < 7
  · exact Or.inl ⟨h7, by unfold decodeFrame; rw [if_pos h7]⟩
  by_cases hl : span.length ≠ totalLen span
  · exact Or.inr (Or.inl ⟨Nat.not_lt.mp h7, hl, by unfold decodeFrame; rw [if_neg h7, if_pos hl]⟩)
  · have hl := not_not.mp hl
    obtain ⟨start, senderId, command, len, p, hi, lo, last, rest, rfl, hp⟩ := layout_of_totalLen_le hl.ge
    rw [length_layout _ _ _ _ _ _ _ hp, totalLen_layout] at hl
    have hr : rest = [] := List.eq_nil_of_length_eq_zero (by omega)
    subst hr
    exact Or.inr (Or.inr ⟨start, senderId, command, len, p, hi, lo, last, rfl, hp⟩)

end Sys2Proof.Machine
end

