-- ==== Sys2Proof/Laws/Reassembler.lean ====
section
/-! SUPPORT. Laws of the reassembler: what one pass finds, said once for each of its three answers; the loop without its
pass bound; and one induction over the loop, from which every law of `RXFEED` follows. -/

namespace Sys2Proof.Machine

open Sys2Proof

/-- A pass waits exactly on the rest states of R29. -/
theorem scanFront_wait_iff (reg : Registry) (buf : Bytes) :
    scanFront reg buf = .wait ↔ RestInvariant reg buf := by
  unfold scanFront RestInvariant totalLen lenField
  by_cases h0 : buf.length = 0
  · simp [h0]
  by_cases h1 : byteAt buf 0 = START
  · by_cases h2 : buf.length < HDR_LEN
    · simp [h0, h1, h2]
    · by_cases h3 : registryLookup reg (byteAt buf 2) = none
      · simp [h0, h1, h2, h3]
      · by_cases h4 : buf.length < OVERHEAD + (byteAt buf 3).toNat
        · simp [h0, h1, h2, h3, h4, Nat.not_lt.mp h2]
        · simp only [h0, h1, h2, h3, h4, if_false, ne_eq, not_true, not_false_eq_true]
          split
          · simp
          · split <;> simp
  · simp [h0, h1]

/-- What a pass accepts: a complete frame with a registered command, the end marker and the right CRC; it takes
exactly that frame. -/
theorem scanFront_accept {reg : Registry} {buf : Bytes} {f : Frame} {total : Nat}
    (h : scanFront reg buf = .accept f total) :
    ∃ senderId command len p hi lo rest,
      buf = layout START senderId command len p hi lo END rest ∧ p.length = len.toNat ∧
      registryLookup reg command ≠ none ∧ crc16 ([START, senderId, command, len] ++ p) = wordOfBytes hi lo ∧
      f = { senderId := senderId, command := command, length := len, payload := p, crc := wordOfBytes hi lo } ∧
      total = 7 + len.toNat := by
  unfold scanFront at h
  split at h
  · cases h
  split at h
  · cases h
  rename_i hs
  split at h
  · cases h
  split at h
  · cases h
  rename_i hr
  split at h
  · cases h
  rename_i hl
  split at h
  · cases h
  rename_i he
  split at h
  · cases h
  rename_i hc
  obtain ⟨start, senderId, command, len, p, hi, lo, last, rest, rfl, hp⟩ :=
    layout_of_totalLen_le (Nat.not_lt.mp hl)
  rw [not_not, byteAt_layout_zero] at hs
  rw [not_not, endField_layout _ _ _ _ _ _ _ hp] at he
  rw [not_not, coveredBytes_layout _ _ _ _ _ _ _ hp, crcField_layout _ _ _ _ _ _ _ hp] at hc
  rw [byteAt_layout_two] at hr
  rw [frameFields_layout _ _ _ _ _ _ _ hp, totalLen_layout] at h
  injection h with hf ht
  subst hs he
  exact ⟨senderId, command, len, p, hi, lo, rest, rfl, hp, hr, hc, hf.symm, ht.symm⟩

/-- A complete frame with a registered command and the right CRC is accepted, whatever follows it. -/
theorem scanFront_layout (reg : Registry) (senderId command len : Byte) (p : Bytes) (hi lo : Byte) (rest : Bytes)
    (hp : p.length = len.toNat) (hr : registryLookup reg command ≠ none)
    (hc : crc16 ([START, senderId, command, len] ++ p) = wordOfBytes hi lo) :
    scanFront reg (layout START senderId command len p hi lo END rest) =
      .accept { senderId := senderId, command := command, length := len, payload := p, crc := wordOfBytes hi lo }
        (7 + len.toNat) := by
  have hl := length_layout START senderId command hi lo END rest hp
  unfold scanFront
  rw [byteAt_layout_zero, byteAt_layout_two, totalLen_layout, endField_layout _ _ _ _ _ _ _ hp,
    coveredBytes_layout _ _ _ _ _ _ _ hp, crcField_layout _ _ _ _ _ _ _ hp,
    frameFields_layout _ _ _ _ _ _ _ hp]
  rw [if_neg (by omega), if_neg (by simp), if_neg (by simp [HDR_LEN]; omega), if_neg hr, if_neg (by omega),
    if_neg (by simp), if_neg (not_not.mpr hc)]

/-- What a pass rejects, and the diagnostic bytes it rejects it with (R181). -/
theorem scanFront_reject {reg : Registry} {buf : Bytes} {k : ErrorKind} {d : Bytes}
    (h : scanFront reg buf = .reject k d) : rxErrorOk k d := by
  have take_zero : ∀ n, 0 < n → byteAt (buf.take n) 0 = byteAt buf 0 := by
    intro n hn
    cases buf <;> cases n <;> simp_all [byteAt]
  unfold scanFront at h
  split at h
  · cases h
  rename_i h0
  split at h
  · rename_i hs
    injection h with hk hd
    subst hk hd
    refine Or.inl ⟨rfl, ?_, ?_, ?_⟩
    · simp [DIAG_MAX]; omega
    · simp [DIAG_MAX]
    · rwa [take_zero _ (by decide)]
  rename_i hs
  split at h
  · cases h
  rename_i h4
  split at h
  · injection h with hk hd
    subst hk hd
    refine Or.inr (Or.inl ⟨rfl, ?_, ?_, ?_⟩)
    · simp [DIAG_MAX, HDR_LEN] at *; omega
    · simp [DIAG_MAX]
    · rw [take_zero _ (by decide)]; exact not_not.mp hs
  split at h
  · cases h
  rename_i hl
  obtain ⟨start, senderId, command, len, p, hi, lo, last, rest, rfl, hp⟩ :=
    layout_of_totalLen_le (Nat.not_lt.mp hl)
  have hend : ∀ r, byteAt (layout start senderId command len p hi lo last r) (6 + len.toNat) = last := by
    intro r
    rw [show 6 + len.toNat = 4 + len.toNat + 2 by omega, byteAt_layout_tail _ _ _ _ _ _ _ hp 2]
    rfl
  have hlen : (layout start senderId command len p hi lo last []).length = 7 + len.toNat := by
    rw [length_layout _ _ _ _ _ _ _ hp]; rfl
  rw [not_not, byteAt_layout_zero] at hs
  rw [endField_layout _ _ _ _ _ _ _ hp, totalLen_layout, take_layout _ _ _ _ _ _ _ hp] at h
  split at h
  · rename_i he
    injection h with hk hd
    subst hk hd
    refine Or.inr (Or.inr (Or.inl ⟨rfl, ?_, ?_, ?_⟩))
    · rw [byteAt_layout_three, hlen]
    · rw [byteAt_layout_zero, hs]
    · rw [byteAt_layout_three, hend]; exact he
  rename_i he
  split at h
  · injection h with hk hd
    subst hk hd
    refine Or.inr (Or.inr (Or.inr ⟨rfl, ?_, ?_, ?_⟩))
    · rw [byteAt_layout_three, hlen]
    · rw [byteAt_layout_zero, hs]
    · rw [byteAt_layout_three, hend]; exact not_not.mp he
  · cases h

/-- A pass that accepts takes at least 7 bytes, all of them present (R160). -/
theorem scanFront_accept_total {reg : Registry} {buf : Bytes} {f : Frame} {total : Nat}
    (h : scanFront reg buf = .accept f total) : 7 ≤ total ∧ total ≤ buf.length := by
  obtain ⟨senderId, command, len, p, hi, lo, rest, rfl, hp, -, -, -, rfl⟩ := scanFront_accept h
  rw [length_layout _ _ _ _ _ _ _ hp]
  omega

/-- The pass bound is never met: any bound above the length gives the same run. -/
theorem parseLoop_passes (reg : Registry) {m n : Nat} {buf : Bytes} (hm : buf.length < m) (hn : buf.length < n) :
    parseLoop reg m buf = parseLoop reg n buf := by
  induction m generalizing n buf with
  | zero => omega
  | succ m ih =>
    cases n with
    | zero => omega
    | succ n =>
      unfold parseLoop
      cases h : scanFront reg buf with
      | wait => rfl
      | reject k d => rfl
      | accept f total =>
        have ht := scanFront_accept_total h
        have hd : (bufDrop buf total).length < buf.length := by simp [bufDrop]; omega
        simp only [ih (n := n) (buf := bufDrop buf total) (by omega) (by omega)]

theorem parseBuffer_wait {reg : Registry} {buf : Bytes} (h : scanFront reg buf = .wait) :
    parseBuffer reg buf = ([], buf) := by
  unfold parseBuffer parseLoop
  rw [h]

theorem parseBuffer_reject {reg : Registry} {buf : Bytes} {k : ErrorKind} {d : Bytes}
    (h : scanFront reg buf = .reject k d) : parseBuffer reg buf = ([.error k d], []) := by
  unfold parseBuffer parseLoop
  rw [h]
  rfl

theorem parseBuffer_accept {reg : Registry} {buf : Bytes} {f : Frame} {total : Nat}
    (h : scanFront reg buf = .accept f total) :
    parseBuffer reg buf =
      (.frame f :: (parseBuffer reg (buf.drop total)).1, (parseBuffer reg (buf.drop total)).2) := by
  have ht := scanFront_accept_total h
  conv_lhs => unfold parseBuffer parseLoop
  rw [h]
  have hd : (bufDrop buf total).length < buf.length := by simp [bufDrop]; omega
  simp only [parseLoop_passes reg hd (Nat.lt_succ_self _)]
  rfl

/-- Induction over a run of the parse loop (R150): its three ways to go on from a buffer. -/
theorem parseBuffer_induction {reg : Registry} {P : Bytes → List RxOutcome → Bytes → Prop}
    (wait : ∀ buf, scanFront reg buf = .wait → P buf [] buf)
    (reject : ∀ buf k d, scanFront reg buf = .reject k d → P buf [.error k d] [])
    (accept : ∀ buf f total out rest, scanFront reg buf = .accept f total →
      P (buf.drop total) out rest → P buf (.frame f :: out) rest)
    (buf : Bytes) : P buf (parseBuffer reg buf).1 (parseBuffer reg buf).2 := by
  induction hn : buf.length using Nat.strong_induction_on generalizing buf with
  | _ n ih =>
    cases h : scanFront reg buf with
    | wait => rw [parseBuffer_wait h]; exact wait buf h
    | reject k d => rw [parseBuffer_reject h]; exact reject buf k d h
    | accept f total =>
      have ht := scanFront_accept_total h
      rw [parseBuffer_accept h]
      exact accept buf f total _ _ h (ih _ (by simp; omega) _ rfl)

/-- What a run of the loop hands out (R161, R181). -/
theorem parseBuffer_outcomesOk (reg : Registry) (buf : Bytes) : outcomesOk (parseBuffer reg buf).1 := by
  refine parseBuffer_induction (P := fun _ out _ => outcomesOk out) ?_ ?_ ?_ buf
  · intro _ _
    trivial
  · intro _ k d h
    exact ⟨scanFront_reject h, rfl⟩
  · intro _ f total out _ h ih
    obtain ⟨senderId, command, len, p, hi, lo, rest, -, hp, -, hc, rfl, -⟩ := scanFront_accept h
    exact ⟨⟨hp, hc.symm⟩, ih⟩

/-- A run of the loop ends in a rest state (R29, R163). -/
theorem parseBuffer_rest (reg : Registry) (buf : Bytes) : RestInvariant reg (parseBuffer reg buf).2 := by
  refine parseBuffer_induction (P := fun _ _ rest => RestInvariant reg rest) ?_ ?_ ?_ buf
  · intro buf h
    exact (scanFront_wait_iff reg buf).mp h
  · intro _ _ _ _
    exact Or.inl rfl
  · intro _ _ _ _ _ _ ih
    exact ih

end Sys2Proof.Machine
end

