-- ==== Sys2Proof/Laws/State.lean ====
section
/-! SUPPORT. One lemma per field per update of State, each true by rfl; later proofs cite them and unfold no record. -/

namespace Sys2Proof.Machine

open Sys2Proof

@[simp] theorem respond_cfg (r : Response) (s : State) : (respond r s).cfg = s.cfg := rfl
@[simp] theorem respond_buf (r : Response) (s : State) : (respond r s).buf = s.buf := rfl
@[simp] theorem respond_feeder (r : Response) (s : State) : (respond r s).feeder = s.feeder := rfl
@[simp] theorem respond_port (r : Response) (s : State) : (respond r s).port = s.port := rfl
@[simp] theorem respond_responses (r : Response) (s : State) :
    (respond r s).responses = s.responses ++ [r] := rfl

@[simp] theorem applyReset_cfg (s : State) : (applyReset s).cfg = s.cfg := rfl
@[simp] theorem applyReset_buf (s : State) : (applyReset s).buf = [] := rfl
@[simp] theorem applyReset_feeder (s : State) : (applyReset s).feeder = s.feeder := rfl
@[simp] theorem applyReset_port (s : State) : (applyReset s).port = s.port := rfl
@[simp] theorem applyReset_responses (s : State) : (applyReset s).responses = s.responses := rfl

@[simp] theorem arriveFirst_cfg (q : Nat) (r : Request) (s : State) : (arriveFirst q r s).cfg = s.cfg := rfl
@[simp] theorem arriveFirst_buf (q : Nat) (r : Request) (s : State) : (arriveFirst q r s).buf = s.buf := rfl
@[simp] theorem arriveFirst_feeder (q : Nat) (r : Request) (s : State) :
    (arriveFirst q r s).feeder = s.feeder := rfl
@[simp] theorem arriveFirst_port (q : Nat) (r : Request) (s : State) :
    (arriveFirst q r s).port = .request q r :: s.port := rfl
@[simp] theorem arriveFirst_responses (q : Nat) (r : Request) (s : State) :
    (arriveFirst q r s).responses = s.responses := rfl

@[simp] theorem resetWith_cfg (c : Config) : (State.resetWith c).cfg = c := rfl
@[simp] theorem resetWith_buf (c : Config) : (State.resetWith c).buf = [] := rfl
@[simp] theorem resetWith_feeder (c : Config) : (State.resetWith c).feeder = none := rfl
@[simp] theorem resetWith_port (c : Config) : (State.resetWith c).port = [] := rfl
@[simp] theorem resetWith_responses (c : Config) : (State.resetWith c).responses = [] := rfl

end Sys2Proof.Machine
end

