-- ==== Sys2Proof/Laws/Exec.lean ====
section
/-! SUPPORT. What executing an instruction can do, said once: six of the seven only respond; `RXFEED` responds and
writes the buffer; and what one step of the machine can do. -/

namespace Sys2Proof.Machine

open Sys2Proof

/-- A frame that `FENC` hands back begins with START, ends with END and is `7 + LEN` bytes long. -/
theorem responseOk_buildFrame {senderId command n : Byte} {p : Bytes} (hp : p.length = n.toNat) :
    responseOk (.ok (.bytes (buildFrame senderId command n p))) := by
  rw [buildFrame_layout]
  refine ⟨?_, rfl, ?_⟩
  · rw [length_layout _ _ _ _ _ _ _ hp, byteAt_layout_three]; rfl
  · rw [byteAt_layout_three, show 6 + n.toNat = 4 + n.toNat + 2 by omega, byteAt_layout_tail _ _ _ _ _ _ _ hp 2]
    rfl

/-- What `FDEC` answers is a response the block can give. -/
theorem responseOk_fdec (span : Bytes) :
    responseOk (match decodeFrame span with
      | .ok f => .ok (.frame f)
      | .error k => .error k span) := by
  rcases decodeFrame_cases span with ⟨h, hd⟩ | ⟨h7, hl, hd⟩ | ⟨start, senderId, command, len, p, hi, lo, last, rfl, hp⟩
  · rw [hd]; exact h
  · rw [hd]; exact ⟨h7, hl⟩
  · have hlen := length_layout start senderId command hi lo last [] hp
    have hend := byteAt_layout_tail start senderId command hi lo last [] hp 2
    rw [show 4 + len.toNat + 2 = 6 + len.toNat by omega] at hend
    rw [decodeFrame_layout _ _ _ _ _ _ _ _ hp]
    split
    · rename_i f hf
      split at hf
      · cases hf
      split at hf
      · cases hf
      split at hf
      · cases hf
      · rename_i hs _ hc
        injection hf with hf
        subst hf
        exact ⟨hp, by rw [← not_not.mp hs]; exact (not_not.mp hc).symm⟩
    · rename_i k hk
      split at hk
      · rename_i hs
        injection hk with hk
        subst hk
        exact ⟨by rw [byteAt_layout_three, hlen]; rfl, hs⟩
      split at hk
      · rename_i hs he
        injection hk with hk
        subst hk
        refine ⟨by rw [byteAt_layout_three, hlen]; rfl, not_not.mp hs, ?_⟩
        rw [byteAt_layout_three, hend]
        exact he
      split at hk
      · rename_i hs he _
        injection hk with hk
        subst hk
        refine ⟨by rw [byteAt_layout_three, hlen]; rfl, not_not.mp hs, ?_⟩
        rw [byteAt_layout_three, hend]
        exact not_not.mp he
      · cases hk

/-- `SMENC` never gives the negative zero (R101). -/
theorem signMagnitudeEncode_ne {x : Int} {b : Byte} (h : signMagnitudeEncode x = some b) : b ≠ 0x80#8 := by
  unfold signMagnitudeEncode SM_MAX at h
  split at h
  · rename_i hx
    injection h with h
    have key : ∀ n : Fin 128, BitVec.ofNat 8 n.val ≠ 0x80#8 ∧
        (0 < n.val → 0x80#8 ||| BitVec.ofNat 8 n.val ≠ 0x80#8) := by decide
    subst h
    split
    · rename_i hneg
      obtain ⟨n, hn⟩ : ∃ n : Nat, -x = n := ⟨(-x).toNat, by omega⟩
      rw [hn]
      have := (key ⟨n, by omega⟩).2 (by simp; omega)
      simpa [BitVec.ofInt_natCast] using this
    · obtain ⟨n, hn⟩ : ∃ n : Nat, x = n := ⟨x.toNat, by omega⟩
      rw [hn]
      have := (key ⟨n, by omega⟩).1
      simpa [BitVec.ofInt_natCast] using this
  · cases h

/-- Every byte decodes into -127 to 127 (R102). -/
theorem signMagnitudeDecode_range (b : Byte) :
    -127 ≤ (signMagnitudeDecode b).toInt ∧ (signMagnitudeDecode b).toInt ≤ 127 := by
  revert b
  decide

/-- Six of the seven instructions answer at every state, and change nothing but the responses (R49, R196). -/
theorem exec_pure {i : Instr} (h : feeds i = false) (s : State) :
    ∃ r, exec i s = .next (respond r s) ∧ responseOk r := by
  cases i with
  | crc16 data => exact ⟨_, rfl, trivial⟩
  | smenc v =>
    simp only [exec, execSmenc]
    split
    · rename_i b hb
      exact ⟨_, rfl, signMagnitudeEncode_ne hb⟩
    · exact ⟨_, rfl, rfl⟩
  | smdec b => exact ⟨_, rfl, signMagnitudeDecode_range b⟩
  | reglen cmd => exact ⟨_, rfl, trivial⟩
  | fenc senderId command payload =>
    simp only [exec, execFenc]
    split
    · rename_i f hf
      obtain ⟨n, p, -, hp, rfl⟩ := encodeFrame_ok hf
      exact ⟨_, rfl, responseOk_buildFrame (payloadFor_length hp)⟩
    · rename_i k hk
      rcases encodeFrame_error hk with rfl | rfl <;> exact ⟨_, rfl, rfl⟩
  | fdec span =>
    have hr := responseOk_fdec span
    cases hd : decodeFrame span <;> rw [hd] at hr <;> exact ⟨_, by simp only [exec, execFdec, hd]; rfl, hr⟩
  | rxfeed chunk => cases h

/-- `RXFEED` answers exactly when its chunk is a request's (R76), and then changes the buffer and the responses. -/
theorem exec_rxfeed {chunk : Bytes} {s : State} (h : chunk.length ≤ s.cfg.feedMax) :
    exec (.rxfeed chunk) s =
      .next (respond (.ok (.outcomes (parseBuffer s.cfg.registry (s.buf ++ chunk)).1))
        { s with buf := (parseBuffer s.cfg.registry (s.buf ++ chunk)).2 }) := by
  simp only [exec, execRxfeed]
  rw [if_neg (Nat.not_lt.mpr h)]
  rfl

theorem exec_rxfeed_refused {chunk : Bytes} {s : State} (h : s.cfg.feedMax < chunk.length) :
    exec (.rxfeed chunk) s = .refused .chunkTooLong := by
  simp only [exec, execRxfeed]
  rw [if_pos h]

/-- Only `RXFEED` feeds. -/
theorem feeds_eq_true {i : Instr} (h : feeds i = true) : ∃ chunk, i = .rxfeed chunk := by
  cases i <;> first | exact ⟨_, rfl⟩ | cases h

/-- What serving a request can do, when it answers a next state. -/
theorem serveRequest_cases {q : Nat} {r : Request} {s s' : State} (h : serveRequest q r s = .next s') :
    (opOf r.op = none ∧ s' = respond (.error .illegalOperation []) s) ∨
    (∃ i a, decode r = .ok i ∧ feeds i = false ∧ s' = respond a s ∧ responseOk a) ∨
    (∃ chunk, decode r = .ok (.rxfeed chunk) ∧ chunk.length ≤ s.cfg.feedMax ∧
      (s.feeder = none ∨ s.feeder = some q) ∧
      s' = respond (.ok (.outcomes (parseBuffer s.cfg.registry (s.buf ++ chunk)).1))
        { s with feeder := some q, buf := (parseBuffer s.cfg.registry (s.buf ++ chunk)).2 }) := by
  unfold serveRequest at h
  split at h
  · rename_i op hd
    refine Or.inl ⟨?_, ?_⟩
    · unfold decode at hd
      split at hd
      · assumption
      · split at hd <;> cases hd
    · injection h with h
      exact h.symm
  · cases h
  · rename_i i hd
    cases hf : feeds i with
    | false =>
      simp only [admitFeeder, hf] at h
      obtain ⟨a, ha, hok⟩ := exec_pure hf s
      simp only [Bool.false_eq_true, if_false, ha] at h
      injection h with h
      exact Or.inr (Or.inl ⟨i, a, hd, hf, h.symm, hok⟩)
    | true =>
      obtain ⟨chunk, rfl⟩ := feeds_eq_true hf
      have finish : ∀ t : State, t = { s with feeder := some q } → exec (.rxfeed chunk) t = .next s' →
          chunk.length ≤ s.cfg.feedMax ∧
          s' = respond (.ok (.outcomes (parseBuffer s.cfg.registry (s.buf ++ chunk)).1))
            { s with feeder := some q, buf := (parseBuffer s.cfg.registry (s.buf ++ chunk)).2 } := by
        intro t ht he
        subst ht
        rcases Nat.lt_or_ge s.cfg.feedMax chunk.length with hl | hl
        · rw [exec_rxfeed_refused (by exact hl)] at he
          cases he
        · rw [exec_rxfeed (by exact hl)] at he
          injection he with he
          exact ⟨hl, he.symm⟩
      simp only [admitFeeder, hf, if_true] at h
      cases hq : s.feeder with
      | none =>
        simp only [hq] at h
        obtain ⟨hl, hs⟩ := finish _ rfl h
        exact Or.inr (Or.inr ⟨chunk, hd, hl, Or.inl rfl, hs⟩)
      | some p =>
        simp only [hq] at h
        by_cases hp : p = q
        · subst hp
          simp only [if_true] at h
          obtain ⟨hl, hs⟩ := finish s (by rw [← hq]) h
          exact Or.inr (Or.inr ⟨chunk, hd, hl, Or.inr rfl, hs⟩)
        · simp [hp] at h

/-- What a step can do, when it answers a next state: idle, reset, or one request served whole. -/
theorem step_cases {s s' : State} (h : step s = .next s') :
    (s.port = [] ∧ s' = s) ∨
    (∃ rest, s.port = .reset :: rest ∧ s' = applyReset { s with port := rest }) ∨
    (∃ q r rest, s.port = .request q r :: rest ∧ serveRequest q r { s with port := rest } = .next s') := by
  unfold step serveNext at h
  split at h
  · rename_i hp
    injection h with h
    exact Or.inl ⟨hp, h.symm⟩
  · rename_i rest hp
    injection h with h
    exact Or.inr (Or.inl ⟨rest, hp, h.symm⟩)
  · rename_i q r rest hp
    exact Or.inr (Or.inr ⟨q, r, rest, hp, h⟩)

end Sys2Proof.Machine
end

