-- ==== Sys2Proof/Laws/PerInstr.lean ====
section
/-! SUPPORT. Families of facts about instructions as syntax, one lemma per constructor. -/

namespace Sys2Proof.Laws.OperandShape

open Sys2Proof

/-- The encoder gives an instruction an assigned opcode and the operand fields of that opcode's row (R73). -/
def Statement (i : Instr) : Prop :=
  ∃ o, opOf (encode i).op = some o ∧ withOperands o (encode i).operands = some i

theorem crc16 (data : Bytes) : Statement (.crc16 data) := ⟨.crc16, rfl, rfl⟩
theorem smenc (v : I32) : Statement (.smenc v) := ⟨.smenc, rfl, rfl⟩
theorem smdec (b : Byte) : Statement (.smdec b) := ⟨.smdec, rfl, rfl⟩
theorem reglen (cmd : Byte) : Statement (.reglen cmd) := ⟨.reglen, rfl, rfl⟩
theorem fenc (senderId command : Byte) (payload : Bytes) : Statement (.fenc senderId command payload) :=
  ⟨.fenc, rfl, rfl⟩
theorem fdec (span : Bytes) : Statement (.fdec span) := ⟨.fdec, rfl, rfl⟩
theorem rxfeed (chunk : Bytes) : Statement (.rxfeed chunk) := ⟨.rxfeed, rfl, rfl⟩

end Sys2Proof.Laws.OperandShape
end

