-- ==== Sys2Proof/Tests/Slice0.lean ====
section
/-! SUPPORT. Tests. Every expected value is the spec's own: the vectors V1 to V96 and the programs P1 to P4 of
95_test_vectors.md, which that file derives from the rules; each test names its vector. After them come the witnesses:
for every statement with hypotheses, a concrete state and operands that meet them together. -/

namespace Sys2Proof.Tests

open Sys2Proof Sys2Proof.Machine Sys2Proof.Spec

/-- TR, the test registry of 95_test_vectors.md section 0. -/
def TR : Registry := [(0x0F#8, 0x00#8), (0x10#8, 0x02#8), (0x21#8, 0x03#8), (0x40#8, 0xFF#8)]

/-- SR, the source registry: the one entry the document gives (R113). -/
def SR : Registry := [(0x0F#8, 0x00#8)]

/-- After reset with the source registry SR, the given bytes in the buffer and these inputs on the port. -/
def sr (buf : Bytes) (port : List PortInput := []) : State := { State.reset with buf := buf, port := port }

/-- The same with the test registry and `FEED_MAX` = 262. -/
def tr (buf : Bytes) (port : List PortInput := []) : State :=
  { State.resetWith { registry := TR, feedMax := 262 } with buf := buf, port := port }

/-- The next state, if there is one. -/
def nextState : Host.Outcome State Fault Refusal → Option State
  | .next s => some s
  | _ => none

theorem next_of_nextState {o : Host.Outcome State Fault Refusal} {t : State} (h : nextState o = some t) :
    o = .next t := by
  cases o <;> simp_all [nextState]

/-- The buffer and the responses after a step or an instruction. -/
def after (o : Host.Outcome State Fault Refusal) : Option (Bytes × List Response) :=
  (nextState o).map fun s => (s.buf, s.responses)

/-- The codes of the responses. -/
def codes (o : Host.Outcome State Fault Refusal) : List Byte :=
  ((after o).map fun r => r.2.map responseCode).getD []

/-- `HB` and `HBX` of 95_test_vectors.md section 0. -/
def HB : Bytes := [0x02#8, 0x01#8, 0x0F#8, 0x00#8, 0xCA#8, 0x66#8, 0x03#8]
def HBX : Bytes := [0x02#8, 0x01#8, 0x0F#8, 0x00#8, 0xCA#8, 0x67#8, 0x03#8]
def HBFrame : Frame :=
  { senderId := 0x01#8, command := 0x0F#8, length := 0x00#8, payload := [], crc := 0xCA66#16 }

/-- `F10` of 95_test_vectors.md section 0. -/
def F10 : Bytes := [0x02#8, 0x02#8, 0x10#8, 0x02#8, 0xAB#8, 0xCD#8, 0x73#8, 0x61#8, 0x03#8]
def F10Frame : Frame :=
  { senderId := 0x02#8, command := 0x10#8, length := 0x02#8, payload := [0xAB#8, 0xCD#8], crc := 0x7361#16 }

/-! ### WellFormed smoke: R76 is the one check -/

theorem test_wf_chunk_of_feed_max : (Instr.rxfeed [0x02#8, 0x01#8]).wf 2 = true := by decide
theorem test_wf_refuses_longer_chunk : (Instr.rxfeed [0x02#8, 0x01#8, 0x0F#8]).wf 2 = false := by decide
theorem test_wf_config_refuses_feed_max_zero : ({ registry := TR, feedMax := 0 } : Config).wf = false := by decide
theorem test_wf_registry_refuses_repeated_command : Registry.wf [(0x10#8, 0x02#8), (0x10#8, 0x03#8)] = false := by
  decide

/-! ### Decoding, from the request records of P1 to P4 -/

/-- p1e. -/
theorem test_decode_crc16 :
    decode { op := 0x01#8, operands := .data [0x02#8, 0x01#8, 0x0F#8, 0x00#8, 0xCA#8, 0x66#8] } =
      .ok (.crc16 [0x02#8, 0x01#8, 0x0F#8, 0x00#8, 0xCA#8, 0x66#8]) := by rfl
/-- p3a. -/
theorem test_decode_smenc : decode { op := 0x10#8, operands := .v (-5#32) } = .ok (.smenc (-5#32)) := by rfl
/-- p3i. -/
theorem test_decode_smdec : decode { op := 0x11#8, operands := .b 0x85#8 } = .ok (.smdec 0x85#8) := by rfl
/-- p4c. -/
theorem test_decode_reglen : decode { op := 0x20#8, operands := .cmd 0x0F#8 } = .ok (.reglen 0x0F#8) := by rfl
/-- p3f. -/
theorem test_decode_fenc :
    decode { op := 0x30#8, operands := .frame 0x03#8 0x21#8 [0x85#8, 0x64#8, 0x00#8] } =
      .ok (.fenc 0x03#8 0x21#8 [0x85#8, 0x64#8, 0x00#8]) := by rfl
/-- p1d. -/
theorem test_decode_fdec : decode { op := 0x31#8, operands := .span HB } = .ok (.fdec HB) := by rfl
/-- p1b. -/
theorem test_decode_rxfeed :
    decode { op := 0x40#8, operands := .chunk [0x02#8, 0x01#8, 0x0F#8] } =
      .ok (.rxfeed [0x02#8, 0x01#8, 0x0F#8]) := by rfl
/-- The opcode's operands and no other (R72). -/
theorem test_decode_refuses_other_operands :
    decode { op := 0x11#8, operands := .v 5#32 } = .error (.operandsNotOfOpcode 0x11#8) := by rfl
/-- V90, V91, V92 at the port: 0x7F, 0x00 and 0x41 change nothing. -/
theorem test_illegal_opcodes :
    [0x7F#8, 0x00#8, 0x41#8].map (fun op =>
      after (step (sr [0x02#8, 0x01#8] [.request 0 { op := op, operands := .none }]))) =
    List.replicate 3 (some ([0x02#8, 0x01#8], [.error .illegalOperation []])) := by decide +kernel
theorem test_table_words_not_in_table : [0x00, 0x41, 0x101, 0x140].map (decodeTableWord 8) = [none, none, none, none] := by
  decide
theorem test_fetch_word_runs_next :
    nextState (step (State.reset.withFetchWord 8 0x20)) =
      some { State.reset with responses := [.ok (.len none)] } := by decide +kernel

/-! ### Each instruction -/

/-- V4. -/
theorem test_crc16_check_value :
    after (exec (.crc16 [0x31#8, 0x32#8, 0x33#8, 0x34#8, 0x35#8, 0x36#8, 0x37#8, 0x38#8, 0x39#8]) (sr [])) =
      some ([], [.ok (.crc 0x31C3#16)]) := by decide +kernel
/-- V8: the most significant bit goes first. -/
theorem test_crc16_msb_first : after (exec (.crc16 [0x80#8]) (sr [])) = some ([], [.ok (.crc 0x9188#16)]) := by
  decide +kernel
/-- V15. -/
theorem test_smenc_minus_one : after (exec (.smenc (-1#32)) (sr [])) = some ([], [.ok (.byte 0x81#8)]) := by
  decide +kernel
/-- V17, V18, V19: the range is checked on the whole value. -/
theorem test_smenc_range :
    [-128#32, BitVec.intMin 32, BitVec.intMax 32].map (fun v => after (exec (.smenc v) (sr []))) =
      List.replicate 3 (some ([], [.error .rangeError []])) := by decide +kernel
/-- V32: a negative zero. -/
theorem test_smdec_negative_zero : after (exec (.smdec 0x80#8) (sr [])) = some ([], [.ok (.int 0#32)]) := by
  decide +kernel
/-- V34. -/
theorem test_smdec_smallest : after (exec (.smdec 0xFF#8) (sr [])) = some ([], [.ok (.int (-127#32))]) := by
  decide +kernel
/-- V36: `Some 0` is not `None`. -/
theorem test_reglen_zero_length : after (exec (.reglen 0x0F#8) (sr [])) = some ([], [.ok (.len (some 0x00#8))]) := by
  decide +kernel
/-- V38, V39. -/
theorem test_reglen_none_and_largest :
    [0x55#8, 0x40#8].map (fun c => after (exec (.reglen c) (tr []))) =
      [some ([], [.ok (.len none)]), some ([], [.ok (.len (some 0xFF#8))])] := by decide +kernel
/-- V27: marker bytes in the payload are not escaped. -/
theorem test_fenc_markers_in_payload :
    after (exec (.fenc 0x03#8 0x21#8 [0x02#8, 0x03#8, 0x10#8]) (tr [])) =
      some ([], [.ok (.bytes
        [0x02#8, 0x03#8, 0x21#8, 0x03#8, 0x02#8, 0x03#8, 0x10#8, 0xBE#8, 0x38#8, 0x03#8])]) := by decide +kernel
/-- V21, V23, V25, V26: zero fill; wrong length; the command first; a payload for a length of 0. -/
theorem test_fenc_payload_and_errors :
    [Instr.fenc 0x01#8 0x10#8 [], .fenc 0x01#8 0x10#8 [0x01#8], .fenc 0x01#8 0x55#8 [0x01#8, 0x02#8],
      .fenc 0x01#8 0x0F#8 [0x00#8]].map (fun i => after (exec i (tr []))) =
    [some ([], [.ok (.bytes [0x02#8, 0x01#8, 0x10#8, 0x02#8, 0x00#8, 0x00#8, 0x54#8, 0xD6#8, 0x03#8])]),
      some ([], [.error .payloadLengthMismatch []]), some ([], [.error .unknownCommand []]),
      some ([], [.error .payloadLengthMismatch []])] := by decide +kernel
/-- V50. -/
theorem test_fdec_frame : after (exec (.fdec F10) (sr [])) = some ([], [.ok (.frame F10Frame)]) := by decide +kernel
/-- V42, V46, V45, V47 and V49: each check, and their order. -/
theorem test_fdec_first_failing_check :
    [HB.take 6, [0x12#8, 0x01#8, 0x0F#8, 0x00#8, 0xCA#8, 0x66#8, 0x13#8],
      [0x02#8, 0x01#8, 0x0F#8, 0x00#8, 0xCA#8, 0x66#8, 0x13#8], HBX,
      [0x12#8, 0x01#8, 0x0F#8, 0x01#8, 0xCA#8, 0x66#8, 0x13#8]].map (fun span => codes (exec (.fdec span) (sr []))) =
    [[0x05#8], [0x01#8], [0x03#8], [0x04#8], [0x06#8]] := by decide +kernel
/-- p2d of P2: the frame the kept bytes complete, then an error that clears the frame behind it. -/
theorem test_rxfeed_frame_then_error :
    after (exec (.rxfeed ([0xCD#8, 0x73#8, 0x61#8, 0x03#8] ++ HBX ++ HB))
        (tr [0x02#8, 0x02#8, 0x10#8, 0x02#8, 0xAB#8])) =
      some ([], [.ok (.outcomes [.frame F10Frame, .error .crcMismatch HBX])]) := by decide +kernel
/-- V76: the diagnostic is cut to 10 bytes. -/
theorem test_rxfeed_undefined_command :
    after (exec (.rxfeed ([0x02#8, 0x01#8, 0x55#8, 0x00#8] ++ List.replicate 8 0x11#8)) (tr [])) =
      some ([], [.ok (.outcomes [.error .undefinedCommand
        ([0x02#8, 0x01#8, 0x55#8, 0x00#8] ++ List.replicate 6 0x11#8)])]) := by decide +kernel
/-- V95: reset in front of a stalled frame. -/
theorem test_reset_clears_buffer :
    nextState (step (sr [0x02#8, 0x01#8, 0x0F#8, 0x00#8, 0xCA#8] [.reset])) = some (sr []) := by decide +kernel
/-- p1a with its label and a comment. -/
theorem test_line_with_label_and_comment :
    parseLine ("p1a: FENC 0x01, 0x0F, -  -- omitted").toList = some (.fenc 0x01#8 0x0F#8 []) := by decide +kernel
/-- p3a, and bytes alone inside a list. -/
theorem test_line_integer_and_bytes :
    parseLine ("SMENC -5").toList = some (.smenc (-5#32)) ∧
      parseLine ("RXFEED [CD, 0x73]").toList = some (.rxfeed [0xCD#8, 0x73#8]) := by decide +kernel

/-! ### Witnesses: the hypotheses of each statement, met -/

/-- A frame of command 0x10 whose LEN is not the registered 2: `LM10`. -/
def LM10 : Bytes := [0x02#8, 0x01#8, 0x10#8, 0x00#8, 0xD9#8, 0x2B#8, 0x03#8]
def LM10Frame : Frame :=
  { senderId := 0x01#8, command := 0x10#8, length := 0x00#8, payload := [], crc := 0xD92B#16 }

theorem receivable_HB : ReceivableFrame SR HBFrame ∧ frameBytes HBFrame = HB := by
  refine ⟨⟨?_, ?_, ?_⟩, ?_⟩ <;> decide +kernel
theorem receivable_F10 : ReceivableFrame TR F10Frame ∧ frameBytes F10Frame = F10 := by
  refine ⟨⟨?_, ?_, ?_⟩, ?_⟩ <;> decide +kernel
theorem receivable_LM10 : ReceivableFrame TR LM10Frame ∧ frameBytes LM10Frame = LM10 := by
  refine ⟨⟨?_, ?_, ?_⟩, ?_⟩ <;> decide +kernel

/-- The first and the last bit of a sequence. -/
theorem witness_FlippedBitChangesChecksum :
    (0 < F10.length ∧ 0 < 8 ∧ crc16 (flipBit F10 0 0) ≠ crc16 F10) ∧
      (8 < F10.length ∧ 7 < 8 ∧ crc16 (flipBit F10 8 7) ≠ crc16 F10) := by decide +kernel

/-- Clause by clause at its boundaries: -128 and 128; -127 and -1; 0 and 127. -/
theorem witness_SmencReturnsSignMagnitude :
    ((-128#32).toInt < -127 ∧ 127 < (128#32).toInt) ∧
      (-127 ≤ (-127#32).toInt ∧ (-127#32).toInt < 0 ∧ -127 ≤ (-1#32).toInt ∧ (-1#32).toInt < 0) ∧
      (0 ≤ (0#32).toInt ∧ (0#32).toInt ≤ 127 ∧ 0 ≤ (127#32).toInt ∧ (127#32).toInt ≤ 127) := by decide +kernel
theorem witness_SignMagnitudeRoundTripFromValue :
    (-127 ≤ (-127#32).toInt ∧ (-127#32).toInt ≤ 127) ∧ (-127 ≤ (127#32).toInt ∧ (127#32).toInt ≤ 127) := by
  decide +kernel
theorem witness_SignMagnitudeRoundTripFromByte : signMagnitudeDecode 0x00#8 = signMagnitudeDecode 0x80#8 := by
  decide +kernel

theorem witness_RegistryIsAnyTotalFunction : TR.wf = true := by decide
/-- Each of the three clauses' premises. -/
theorem witness_NoStepChangesConfiguration :
    (∃ t, step (sr [] [.reset]) = .next t) ∧ (∃ t, exec (.rxfeed HB) (sr []) = .next t) := by
  exact ⟨⟨_, rfl⟩, ⟨_, rfl⟩⟩
theorem witness_ReglenReturnsEntry : registryLookup (sr []).cfg.registry 0x0F#8 = some 0x00#8 := by decide
/-- A form of each of the seven instructions; FEED_MAX at its boundary for the header. -/
theorem witness_RegistryIsReadByThreeOperations :
    let s := State.resetWith { registry := TR, feedMax := 4 }
    ((∃ data, Instr.crc16 HB = .crc16 data) ∧ (∃ v, Instr.smenc 5#32 = .smenc v) ∧
      (∃ b, Instr.smdec 0x85#8 = .smdec b) ∧ ∃ span, Instr.fdec HB = .fdec span) ∧
    (∃ cmd, Instr.reglen 0x10#8 = .reglen cmd) ∧
    (∃ sender command payload, Instr.fenc 0x01#8 0x10#8 [] = .fenc sender command payload) ∧
    s.buf = [] ∧ 4 ≤ s.cfg.feedMax ∧
      ∃ sender c len, Instr.rxfeed [0x02#8, 0x01#8, 0x55#8, 0x00#8] = .rxfeed [0x02#8, sender, c, len] :=
  ⟨⟨⟨_, rfl⟩, ⟨_, rfl⟩, ⟨_, rfl⟩, ⟨_, rfl⟩⟩, ⟨_, rfl⟩, ⟨_, _, _, rfl⟩, rfl, by decide, ⟨_, _, _, rfl⟩⟩

/-- Unregistered; a payload one byte short, one long, and one for length 0; the right length, and an empty payload at
lengths 2, 0 and 255. -/
theorem witness_FencReturnsFrameOrError :
    registryLookup (tr []).cfg.registry 0x55#8 = none ∧
      (registryLookup (tr []).cfg.registry 0x10#8 = some 0x02#8 ∧ [0x01#8] ≠ [] ∧ [0x01#8].length ≠ (0x02#8).toNat) ∧
      (registryLookup (tr []).cfg.registry 0x0F#8 = some 0x00#8 ∧ [0x00#8].length ≠ (0x00#8).toNat) ∧
      [0xAB#8, 0xCD#8].length = (0x02#8).toNat ∧ registryLookup (tr []).cfg.registry 0x40#8 = some 0xFF#8 := by
  decide
/-- `FENC` answers bytes (V22). -/
theorem witness_FencFrameHasWireLayout :
    exec (.fenc 0x02#8 0x10#8 [0xAB#8, 0xCD#8]) (tr []) = .next { tr [] with responses := [.ok (.bytes F10)] } :=
  next_of_nextState (by decide +kernel)
theorem witness_FdecAcceptsExactlyFrames :
    exec (.fdec LM10) (sr []) = .next { sr [] with responses := [.ok (.frame LM10Frame)] } :=
  next_of_nextState (by decide +kernel)
theorem witness_FrameRoundTrip :
    registryLookup (tr []).cfg.registry 0x10#8 = some 0x02#8 ∧ [0xAB#8, 0xCD#8].length = (0x02#8).toNat := by decide
/-- V53, V54: the first bit of the first payload byte and the last bit of the last. -/
theorem witness_FdecReportsFlippedPayloadBit :
    registryLookup (tr []).cfg.registry 0x10#8 = some 0x02#8 ∧
      exec (.fenc 0x02#8 0x10#8 [0xAB#8, 0xCD#8]) (tr []) = .next { tr [] with responses := [.ok (.bytes F10)] } ∧
      (0 < (0x02#8).toNat ∧ 1 < (0x02#8).toNat ∧ 0 < 8 ∧ 7 < 8) :=
  ⟨by decide, witness_FencFrameHasWireLayout, by decide⟩

/-- The shortest chunk, and one of exactly FEED_MAX bytes. -/
theorem witness_RxfeedRunsParseLoop :
    ([] : Bytes).length ≤ (tr []).cfg.feedMax ∧ (List.replicate 262 0xAA#8).length ≤ (tr []).cfg.feedMax := by
  decide +kernel
/-- The relation has a run through the frame and the error exits (V68). -/
theorem witness_RxLoop :
    RxLoop SR (HB ++ [0xFF#8]) [.frame HBFrame, .error .invalidStart [0xFF#8]] [] :=
  RxLoop.frame 0x01#8 0x0F#8 0x00#8 [] 0xCA#8 0x66#8 [0xFF#8] (by decide) (by decide) (by decide +kernel) _ _
    (RxLoop.badStart 0xFF#8 [] (by decide))
theorem witness_OversizedChunkIsRefused : (tr []).cfg.feedMax < (List.replicate 263 0xAA#8).length := by
  decide +kernel

/-- One `RXFEED` that answers a frame and then an error: the premises of the statements about its outcomes. -/
theorem rxfeed_frame_then_error :
    exec (.rxfeed (HB ++ HBX ++ HB)) (sr []) =
      .next { sr [] with responses := [.ok (.outcomes [.frame HBFrame, .error .crcMismatch HBX])] } :=
  next_of_nextState (by decide +kernel)
theorem witness_RxfeedOutcomeCountIsBounded :
    ∃ t out, exec (.rxfeed (HB ++ HBX ++ HB)) (sr []) = .next t ∧
      t.responses = (sr []).responses ++ [.ok (.outcomes out)] := ⟨_, _, rxfeed_frame_then_error, rfl⟩
theorem witness_RxfeedErrorIsLastAndClears : ∃ t, exec (.rxfeed (HB ++ HBX ++ HB)) (sr []) = .next t :=
  ⟨_, rxfeed_frame_then_error⟩
theorem witness_RxfeedEmitsOnlyStreamErrors :
    ∃ t out k d, exec (.rxfeed (HB ++ HBX ++ HB)) (sr []) = .next t ∧
      t.responses = (sr []).responses ++ [.ok (.outcomes out)] ∧ .error k d ∈ out :=
  ⟨_, _, .crcMismatch, HBX, rxfeed_frame_then_error, rfl, by decide⟩
theorem witness_RxfeedLeavesRestState : ∃ t, exec (.rxfeed (HB.take 5)) (sr []) = .next t := ⟨_, rfl⟩
/-- 261 bytes kept, the most there can be, and a chunk of FEED_MAX bytes. -/
theorem witness_BufferFitsTheStatedRoom :
    RestInvariant TR ([0x02#8, 0x01#8, 0x40#8, 0xFF#8] ++ List.replicate 257 0xAA#8) ∧
      ∃ t, exec (.rxfeed (List.replicate 262 0xAA#8))
        (tr ([0x02#8, 0x01#8, 0x40#8, 0xFF#8] ++ List.replicate 257 0xAA#8)) = .next t :=
  ⟨by decide +kernel, _, exec_rxfeed (by decide +kernel)⟩
/-- A header completed and a body still short (V81); the empty chunk on 3 bytes (V85). -/
theorem witness_RxfeedWaitsWithoutOutcome :
    ([0x10#8, 0x02#8, 0xAB#8].length ≤ (tr [0x02#8, 0x02#8]).cfg.feedMax ∧
      RestInvariant (tr []).cfg.registry ([0x02#8, 0x02#8] ++ [0x10#8, 0x02#8, 0xAB#8])) ∧
    RestInvariant (sr []).cfg.registry ([0x02#8, 0x01#8, 0x0F#8] ++ []) := by decide
/-- Two registries of one set of commands; `LM10` (V73). -/
theorem witness_LenIsNotComparedWithRegistry :
    (∀ c : Byte, (registryLookup [(0x0F#8, 0x09#8)] c).isSome = (registryLookup (sr []).cfg.registry c).isSome) ∧
      (ReceivableFrame (tr []).cfg.registry LM10Frame ∧ (frameBytes LM10Frame).length ≤ (tr []).cfg.feedMax) :=
  ⟨by decide +kernel, receivable_LM10.1, by decide +kernel⟩
/-- `HB ++ F10` in three chunks, one of them empty, from requester 3 (V62, V70). -/
theorem witness_ChunkingOfCleanStreamDoesNotMatter :
    let chunks : List Bytes := [HB ++ F10.take 3, [], F10.drop 3]
    let s := tr [] (chunks.map fun c => .request 3 { op := 0x40#8, operands := .chunk c })
    (∀ f ∈ [HBFrame, F10Frame], ReceivableFrame s.cfg.registry f) ∧ (∀ c ∈ chunks, c.length ≤ s.cfg.feedMax) ∧
      chunks.flatten = ([HBFrame, F10Frame].map frameBytes).flatten ∧ s.buf = [] ∧ s.feeder = none := by
  refine ⟨?_, by decide +kernel, by decide +kernel, rfl, rfl⟩
  intro f hf
  simp only [List.mem_cons, List.not_mem_nil, or_false] at hf
  obtain rfl | rfl := hf
  · refine ⟨?_, ?_, ?_⟩ <;> decide +kernel
  · exact receivable_F10.1
theorem witness_ChunkingMattersAfterError :
    (sr []).buf = [] ∧ 8 ≤ (sr []).cfg.feedMax ∧ registryLookup (sr []).cfg.registry 0x0F#8 = some 0x00#8 := by
  decide +kernel
theorem witness_LostByteCostsNextFrame :
    let s := sr [0x02#8, 0x01#8, 0x0F#8, 0x00#8, 0xCA#8, 0x03#8]
    7 ≤ s.cfg.feedMax ∧ registryLookup s.cfg.registry 0x0F#8 = some 0x00#8 := by decide +kernel
theorem witness_RecoveryAfterErrorIsClean :
    (∃ t out, exec (.rxfeed (HB ++ HBX ++ HB)) (sr []) = .next t ∧
      t.responses = (sr []).responses ++ [.ok (.outcomes out)] ∧ .error .crcMismatch HBX ∈ out) ∧
    ReceivableFrame (sr []).cfg.registry HBFrame ∧ (frameBytes HBFrame).length ≤ (sr []).cfg.feedMax :=
  ⟨⟨_, _, rxfeed_frame_then_error, rfl, by decide⟩, receivable_HB.1, by decide +kernel⟩
/-- V86's frame: the first and the last payload byte, the first and the last bit. -/
theorem witness_RxfeedReportsFlippedPayloadBit :
    ReceivableFrame (tr []).cfg.registry F10Frame ∧ (frameBytes F10Frame).length ≤ (tr []).cfg.feedMax ∧
      (0 < F10Frame.length.toNat ∧ 1 < F10Frame.length.toNat ∧ 0 < 8 ∧ 7 < 8) :=
  ⟨receivable_F10.1, by decide +kernel, by decide⟩
theorem witness_LoopFrameIsFdecFrame : scanFront SR (HB ++ HBX) = .accept HBFrame 7 := by decide +kernel

theorem witness_DecodeInvertsEncode : decode { op := 0x20#8, operands := .cmd 0x0F#8 } = .ok (.reglen 0x0F#8) := rfl
/-- V92: one bit from `RXFEED`'s opcode, and `RXFEED`'s operands. -/
theorem witness_UnassignedOpcodeIsAnswered :
    0x41#8 ∉ [0x01#8, 0x10#8, 0x11#8, 0x20#8, 0x30#8, 0x31#8, 0x40#8] ∧
      (sr [] [.request 5 { op := 0x41#8, operands := .chunk HB }]).port =
        .request 5 { op := 0x41#8, operands := .chunk HB } :: [] := ⟨by decide, rfl⟩
/-- A feed to a state nobody has fed, and one from the feeder it has. -/
theorem witness_StepServesDecodedRequest :
    decode { op := 0x40#8, operands := .chunk HB } = .ok (.rxfeed HB) ∧ feeds (.rxfeed HB) = true ∧
      (sr []).feeder = none ∧ ({ sr [] with feeder := some 7 } : State).feeder = some 7 := ⟨rfl, rfl, rfl, rfl⟩
theorem witness_SecondFeederIsRefused :
    let s := { sr [] [.request 8 { op := 0x40#8, operands := .chunk HB }] with feeder := some 7 }
    s.feeder = some 7 ∧ 7 ≠ 8 ∧ s.port = .request 8 { op := 0x40#8, operands := .chunk HB } :: [] := by decide +kernel
theorem witness_IdleBlockHoldsItsState : (sr [0x02#8]).port = [] := rfl
theorem witness_ResetInputClearsBufferOnly : (sr [0x02#8] [.reset]).port = .reset :: [] := rfl
theorem witness_ResetStateSatisfiesInvariant : ({ registry := TR, feedMax := 1 } : Config).wf = true := by decide
/-- A state in mid-frame, fed by requester 0, that meets the invariant and takes a step. -/
theorem witness_StepKeepsInvariant :
    let s := { sr (HB.take 5) [.request 0 { op := 0x40#8, operands := .chunk (HB.drop 5) }] with
      feeder := some 0, responses := [.ok (.outcomes [])] }
    Inv s ∧ ∃ t, step s = .next t := by
  refine ⟨⟨by decide +kernel, by decide +kernel, by decide +kernel, ?_⟩, ⟨_, rfl⟩⟩
  simp [responseOk, outcomesOk]
/-- A reset and a feed that change the buffer. -/
theorem witness_OnlyFeedAndResetWriteBuffer :
    (∃ t, step (sr [0x02#8] [.reset]) = .next t ∧ t.buf ≠ (sr [0x02#8] [.reset]).buf) ∧
    ∃ t, step (sr [] [.request 0 { op := 0x40#8, operands := .chunk [0x02#8] }]) = .next t ∧
      t.buf ≠ (sr []).buf := by
  refine ⟨⟨_, rfl, by decide⟩, ⟨_, rfl, by decide +kernel⟩⟩
theorem witness_NonFeedingRequestsAreStateless :
    (∀ chunk, Instr.fdec HB ≠ .rxfeed chunk) ∧ (sr HB).cfg = (sr []).cfg := ⟨nofun, rfl⟩
theorem witness_RxfeedChangesOnlyBufferAndResponses : ∃ t, exec (.rxfeed []) (sr []) = .next t := ⟨_, rfl⟩
/-- Reset; an unassigned opcode; a well-formed instruction whose requester may feed, with a chunk of FEED_MAX bytes. -/
theorem witness_EveryLegalInputCompletes :
    (sr [] [.reset]).port = .reset :: [] ∧ opOf 0x7F#8 = none ∧
      (Instr.rxfeed (List.replicate 262 0xAA#8)).wf (tr []).cfg.feedMax = true ∧ (tr []).feeder = none := by
  decide +kernel
/-- Two instances over one registry, of which the first takes a step that changes it (V95). -/
theorem witness_SessionsAreIndependent :
    let instances := [sr [0x02#8] [.reset], sr HB]
    sharedRegistry SR instances ∧ stepInstance 0 instances = .next [sr [], sr HB] ∧
      instances[0]? = some (sr [0x02#8] [.reset]) ∧ step (sr [0x02#8] [.reset]) = .next (sr []) := by
  refine ⟨?_, rfl, rfl, rfl⟩
  intro s hs
  simp only [List.mem_cons, List.not_mem_nil, or_false] at hs
  obtain rfl | rfl := hs <;> rfl
theorem witness_RequestSyntaxRoundTrip :
    ['p', '1', 'a'] ≠ [] ∧ ∀ c ∈ ['p', '1', 'a'], isWordChar c = true :=
  ⟨nofun, by simp [isWordChar, Char.isAlphanum, Char.isAlpha, Char.isUpper, Char.isLower, Char.isDigit]⟩

end Sys2Proof.Tests
end

section
/-! Proofs about the state after boot and reset (spec 10_state.md R30). -/

namespace Sys2Proof.Machine

open Sys2Proof

/-- The empty buffer is read as `Seeking` under every registry (R28). -/
@[simp] theorem parseState_nil (reg : Registry) : parseState reg [] = .seeking := rfl

/-- The checksum of no bytes is the accumulator's start value (R91, R30). -/
@[simp] theorem crc16_nil : crc16 [] = CRC_INIT := rfl

/-- The reset state is the boot state of the configuration it carries. -/
theorem reset_eq_resetWith_cfg : State.reset = State.resetWith State.reset.cfg := rfl

/-- Settles O47: the boot state's fields by the laws of `resetWith`, under every configuration; the empty buffer is
`Seeking`; the constants by their definitions. -/
theorem resetStateHasEmptyBuffer : Obligations.ResetStateHasEmptyBuffer := by
  unfold Obligations.ResetStateHasEmptyBuffer
  have boot (cfg : Config) : parseState cfg.registry (State.resetWith cfg).buf = .seeking := by
    rw [resetWith_buf, parseState_nil]
  exact ⟨fun cfg => ⟨resetWith_buf cfg, resetWith_cfg cfg, boot cfg, resetWith_responses cfg⟩,
    reset_eq_resetWith_cfg, crc16_nil, rfl, rfl⟩

end Sys2Proof.Machine
end

section
/-! Proofs about side effects and idempotency (spec 20_memory.md R49). -/

namespace Sys2Proof.Machine

open Sys2Proof

/-- The converse of `feeds_eq_true`: whatever is not an `RXFEED` does not feed. -/
theorem feeds_eq_false {i : Instr} (h : ∀ chunk, i ≠ .rxfeed chunk) : feeds i = false := by
  rw [← Bool.not_eq_true]
  intro hf
  obtain ⟨chunk, hi⟩ := feeds_eq_true hf
  exact h chunk hi

/-- R49: the response of a request that does not feed is fixed by the request and the configuration. The registry is
all that `REGLEN` and `FENC` read of the state; the other four read nothing of it. -/
theorem exec_response_of_cfg {i : Instr} (h : feeds i = false) (c : Config) :
    ∃ r, ∀ s : State, s.cfg = c → exec i s = .next (respond r s) := by
  cases i with
  | crc16 data => exact ⟨.ok (.crc (crc16 data)), fun _ _ => rfl⟩
  | smenc v =>
    simp only [exec, execSmenc]
    cases signMagnitudeEncode (operandValue v) with
    | none => exact ⟨.error .rangeError [], fun _ _ => rfl⟩
    | some b => exact ⟨.ok (.byte b), fun _ _ => rfl⟩
  | smdec b => exact ⟨.ok (.int (signMagnitudeDecode b)), fun _ _ => rfl⟩
  | reglen cmd =>
    refine ⟨.ok (.len (registryLookup c.registry cmd)), ?_⟩
    rintro s rfl
    rfl
  | fenc senderId command payload =>
    cases he : encodeFrame c.registry senderId command payload with
    | error k =>
      refine ⟨.error k [], fun s hs => ?_⟩
      simp only [exec, execFenc, hs, he, failWith]
    | ok f =>
      refine ⟨.ok (.bytes f), fun s hs => ?_⟩
      simp only [exec, execFenc, hs, he, returnOk]
  | fdec span =>
    simp only [exec, execFdec]
    cases decodeFrame span with
    | error k => exact ⟨.error k span, fun _ _ => rfl⟩
    | ok f => exact ⟨.ok (.frame f), fun _ _ => rfl⟩
  | rxfeed chunk => cases h

/-- A feed that leaves a rest state emits nothing and keeps every byte (R29, R162). -/
theorem exec_rxfeed_wait {chunk : Bytes} {s : State} (h : chunk.length ≤ s.cfg.feedMax)
    (hw : RestInvariant s.cfg.registry (s.buf ++ chunk)) :
    exec (.rxfeed chunk) s = .next (respond (.ok (.outcomes [])) { s with buf := s.buf ++ chunk }) := by
  rw [exec_rxfeed h, parseBuffer_wait ((scanFront_wait_iff _ _).mpr hw)]

/-- A feed whose first pass rejects emits that one error and clears the buffer (R161). -/
theorem exec_rxfeed_reject {chunk : Bytes} {s : State} {k : ErrorKind} {d : Bytes}
    (h : chunk.length ≤ s.cfg.feedMax) (hr : scanFront s.cfg.registry (s.buf ++ chunk) = .reject k d) :
    exec (.rxfeed chunk) s = .next (respond (.ok (.outcomes [.error k d])) { s with buf := [] }) := by
  rw [exec_rxfeed h, parseBuffer_reject hr]

/-- A block after reset that registers no command and takes chunks of up to two bytes. -/
def emptyRegistryBlock : State := State.resetWith { registry := [], feedMax := 2 }

/-- Two start bytes are the first half of a header: the block waits for the rest (R154). -/
theorem exec_rxfeed_half_header :
    exec (.rxfeed [START, START]) emptyRegistryBlock =
      .next (respond (.ok (.outcomes [])) { emptyRegistryBlock with buf := [START, START] }) :=
  exec_rxfeed_wait (by decide) (by decide)

/-- The same two bytes again complete a header, whose command byte is unregistered (R155). -/
theorem exec_rxfeed_half_header_again (earlier : List Response) :
    exec (.rxfeed [START, START])
        { emptyRegistryBlock with buf := [START, START], responses := earlier } =
      .next (respond (.ok (.outcomes [.error .undefinedCommand [START, START, START, START]]))
        { emptyRegistryBlock with responses := earlier }) :=
  exec_rxfeed_reject (Nat.le_refl 2) rfl

/-- Settles O51: the response of a request that does not feed depends on the configuration alone; and two start bytes
fed twice to an empty buffer are first half a header, then a whole one with an unregistered command. -/
theorem nonFeedingRequestsAreStateless : Obligations.NonFeedingRequestsAreStateless := by
  unfold Obligations.NonFeedingRequestsAreStateless
  refine ⟨fun i s s' hi hc => ?_, ?_⟩
  · obtain ⟨r, hr⟩ := exec_response_of_cfg (feeds_eq_false hi) s.cfg
    exact ⟨r, hr s rfl, hr s' hc⟩
  · exact ⟨[START, START], emptyRegistryBlock, _, _, [], [.error .undefinedCommand [START, START, START, START]],
      exec_rxfeed_half_header, rfl, exec_rxfeed_half_header_again _, rfl, nofun⟩

end Sys2Proof.Machine
end

section
/-! Proofs about the encoding of frames and requests (spec 30_encoding.md R60 to R63, R75, R76). -/

namespace Sys2Proof.Machine

open Sys2Proof Sys2Proof.Spec

/-! ### The frame on the wire -/

/-- The CRC field's value in numbers: the high byte counts 256 times (R43, R63). -/
theorem toNat_wordOfBytes (hi lo : Byte) : (wordOfBytes hi lo).toNat = 256 * hi.toNat + lo.toNat := by
  rw [wordOfBytes_eq_append, BitVec.toNat_append, Nat.shiftLeft_eq, Nat.mul_comm,
    ← Nat.two_pow_add_eq_or_of_lt lo.isLt]

/-- What `payloadFor` answers, when it answers, is the payload with an empty one zero filled (R120 step 2). -/
theorem payloadFor_eq_filled {n : Byte} {payload p : Bytes} (h : payloadFor n payload = some p) :
    p = filled n payload := by
  have hp := payloadFor_length h
  unfold payloadFor at h
  split at h
  next hz =>
    cases List.eq_nil_of_length_eq_zero hz.1
    exact (Option.some.inj h).symm
  next hz =>
    split at h
    · cases h
    · cases h
      unfold filled
      split
      next he =>
        subst he
        rw [← hp]
        rfl
      next => rfl

/-- Bytes among the responses of `FENC` are the frame that `encodeFrame` built. -/
theorem encodeFrame_of_exec_fenc {senderId command : Byte} {payload f : Bytes} {s t : State}
    (h : exec (.fenc senderId command payload) s = .next t)
    (hr : t.responses = s.responses ++ [.ok (.bytes f)]) :
    encodeFrame s.cfg.registry senderId command payload = .ok f := by
  simp only [exec, execFenc] at h
  cases he : encodeFrame s.cfg.registry senderId command payload with
  | error k =>
    rw [he] at h
    cases h
    simp at hr
  | ok g =>
    rw [he] at h
    cases h
    simpa using hr

section
variable (start senderId command len : Byte) {p : Bytes} (hi lo last : Byte) (rest : Bytes)

/-- The payload stands at offsets 4 to `3 + L` (R60). -/
theorem payload_layout (hp : p.length = len.toNat) :
    ((layout start senderId command len p hi lo last rest).drop 4).take len.toNat = p := by
  rw [← hp]
  exact List.take_left

/-- What follows the payload stands at offset `4 + L` and after it (R60). -/
theorem getElem?_layout_tail (hp : p.length = len.toNat) (k : Nat) :
    (layout start senderId command len p hi lo last rest)[4 + len.toNat + k]? = (hi :: lo :: last :: rest)[k]? := by
  rw [show 4 + len.toNat + k = p.length + k + 4 by omega]
  simp [layout, List.getElem?_append_right]

/-- The CRC covers the first `4 + L` bytes (R62). -/
theorem take_layout_covered (hp : p.length = len.toNat) :
    (layout start senderId command len p hi lo last rest).take (4 + len.toNat) =
      [start, senderId, command, len] ++ p :=
  coveredBytes_layout start senderId command hi lo last rest hp

end

/-- Settles O19: the bytes are a built frame, which has the layout of R60 around the filled payload; each offset is
read off the layout. -/
theorem fencFrameHasWireLayout : Obligations.FencFrameHasWireLayout := by
  unfold Obligations.FencFrameHasWireLayout
  intro sender command payload f s t h hr
  obtain ⟨n, p, hn, hpay, rfl⟩ := encodeFrame_ok (encodeFrame_of_exec_fenc h hr)
  have hp := payloadFor_length hpay
  rw [buildFrame_layout]
  generalize hc : crc16 ([START, sender, command, n] ++ p) = c
  have hlen := length_layout START sender command (hiByte c) (loByte c) END [] hp
  have htail := getElem?_layout_tail START sender command n (hiByte c) (loByte c) END [] hp
  have hend := htail 2
  have hlo := htail 1
  rw [show 4 + n.toNat + 2 = 6 + n.toNat by omega] at hend
  rw [show 4 + n.toNat + 1 = 5 + n.toNat by omega] at hlo
  have hn256 := n.isLt
  rw [List.length_nil, Nat.add_zero] at hlen
  refine ⟨n, hn, hlen, by omega, by omega, rfl, rfl, rfl, rfl, ?_, hend, hiByte c, loByte c, htail 0, hlo, ?_⟩
  · rw [payload_layout _ _ _ _ _ _ _ _ hp, payloadFor_eq_filled hpay]
  · rw [take_layout_covered _ _ _ _ _ _ _ _ hp, hc, ← toNat_wordOfBytes, wordOfBytes_hi_lo]

/-! ### The request on the port -/

/-- An opcode that no row of the opcode map has is unassigned (R75). -/
theorem opOf_eq_none {op : Byte} (h : op ∉ opcodeTable.map Prod.fst) : opOf op = none := by
  cases ho : opOf op with
  | none => rfl
  | some o => exact absurd (List.mem_map_of_mem (opOf_some ho)) h

/-- The opcode check comes first: an unassigned opcode is answered whatever the operands and the requester (R195). -/
theorem serveRequest_unassigned {r : Request} (h : opOf r.op = none) (q : Nat) (s : State) :
    serveRequest q r s = .next (respond (.error .illegalOperation []) s) := by
  unfold serveRequest
  rw [decode_unassigned h]
  rfl

/-- A request at the head of the port is taken off and served (R51). -/
theorem step_request {q : Nat} {r : Request} {rest : List PortInput} {s : State}
    (h : s.port = .request q r :: rest) : step s = serveRequest q r { s with port := rest } := by
  unfold step serveNext
  rw [h]

/-- Settles O42: the step serves the request, the decoder finds no row for its opcode, and the answer is the error
response; the count evaluates the opcode map at the 256 opcodes. -/
theorem unassignedOpcodeIsAnswered : Obligations.UnassignedOpcodeIsAnswered := by
  unfold Obligations.UnassignedOpcodeIsAnswered
  refine ⟨fun op operands q rest s hop hport => ?_, by decide +kernel⟩
  rw [step_request hport, serveRequest_unassigned (opOf_eq_none hop)]
  rfl

/-- Settles O25: `RXFEED` compares the chunk with FEED_MAX before it does anything else. -/
theorem oversizedChunkIsRefused : Obligations.OversizedChunkIsRefused := by
  unfold Obligations.OversizedChunkIsRefused
  exact fun _ _ => exec_rxfeed_refused

end Sys2Proof.Machine
end

section
/-! Proofs about the CRC16 Engine (spec 40_crc16.md R90 to R92). -/

namespace Sys2Proof.Machine

open Sys2Proof Sys2Proof.Spec

/-! ### The step in integers -/

/-- Masking an integer with 0xFFFF leaves what a 16-bit word holds of it. -/
theorem and_mask_eq_mod (n : Nat) : n &&& 0xFFFF = n % 2 ^ 16 := Nat.and_two_pow_sub_one_eq_mod n 16

/-- One round on words is one round of the pseudocode: bit 15 decides, and the 16-bit shift is the mask. -/
theorem toNat_crcRound (w : Word16) :
    (crcRound w).toNat =
      if w.toNat.testBit 15 then ((w.toNat <<< 1) ^^^ 0x1021) &&& 0xFFFF else (w.toNat <<< 1) &&& 0xFFFF := by
  have hm : w.msb = w.toNat.testBit 15 := BitVec.msb_eq_getLsbD_last w
  unfold crcRound
  rw [hm, and_mask_eq_mod, and_mask_eq_mod]
  split
  · rw [BitVec.toNat_xor, BitVec.toNat_shiftLeft, Nat.xor_mod_two_pow]
    rfl
  · exact BitVec.toNat_shiftLeft

theorem toNat_crcRounds (n : Nat) (w : Word16) : (crcRounds n w).toNat = crcRoundsInt n w.toNat := by
  induction n generalizing w with
  | zero => rfl
  | succ n ih => rw [crcRounds, ih, toNat_crcRound, crcRoundsInt]

/-- A byte moved to bits 15 to 8 loses no bit: the shift on words is the shift on integers. -/
theorem toNat_highByte (b : Byte) : ((b.setWidth 16 : Word16) <<< 8).toNat = b.toNat <<< 8 := by
  have hb := b.isLt
  rw [BitVec.toNat_shiftLeft, BitVec.toNat_setWidth_of_le (by omega), Nat.shiftLeft_eq]
  exact Nat.mod_eq_of_lt (by omega)

/-- Settles O1: the words of the model and the integers of the pseudocode start equal and stay equal in every round. -/
theorem crcStepIsIntegerPseudocode : Obligations.CrcStepIsIntegerPseudocode := by
  unfold Obligations.CrcStepIsIntegerPseudocode
  intro acc b
  rw [crcStep, toNat_crcRounds, BitVec.toNat_xor, toNat_highByte]

/-! ### The checksum and its request -/

/-- Settles O2: a byte at the end of the sequence is the last one folded. -/
theorem checksumFoldsStep : Obligations.ChecksumFoldsStep := by
  unfold Obligations.ChecksumFoldsStep
  exact ⟨crc16_nil, fun s b => crc16_append s [b]⟩

/-- A zero byte leaves the accumulator at zero (R92). -/
theorem crcStep_zero : crcStep 0x0000#16 0x00#8 = 0x0000#16 := crcRounds_zero 8

theorem crc16_zeros (n : Nat) : crc16 (List.replicate n 0x00#8) = 0x0000#16 := by
  induction n with
  | zero => exact crc16_nil
  | succ n ih => rw [List.replicate_succ', crc16_append, ih, List.foldl_cons, crcStep_zero, List.foldl_nil]

/-- `CRC16` responds with the checksum of its operand and does nothing else (R92). -/
theorem exec_crc16 (data : Bytes) (s : State) :
    exec (.crc16 data) s = .next (respond (.ok (.crc (crc16 data))) s) := rfl

/-- Settles O3: the request is row 0x01 of the opcode map; its one effect is the response; zero bytes fold to zero by
induction on their number; the worked example is evaluated. -/
theorem crc16RequestReturnsChecksum : Obligations.Crc16RequestReturnsChecksum := by
  unfold Obligations.Crc16RequestReturnsChecksum
  exact ⟨fun _ => rfl, exec_crc16, crc16_zeros, by decide +kernel⟩

end Sys2Proof.Machine
end

section
/-! Proofs about the Signed-Byte Codec (spec 41_sign_magnitude.md R100 to R103). -/

namespace Sys2Proof.Machine

open Sys2Proof

/-! ### The encoder in integers -/

/-- Bit 7 set above a magnitude of seven bits adds 128 to it (R70). -/
theorem toNat_signBit_or {m : Byte} (h : m.toNat < 128) : (0x80#8 ||| m).toNat = 128 + m.toNat := by
  rw [BitVec.toNat_or]
  exact (Nat.two_pow_add_eq_or_of_lt (i := 7) h 1).symm

/-- A number that fits a byte is the byte's value. -/
theorem toNat_ofInt_byte {x : Int} (h0 : 0 ≤ x) (h : x < 256) : (BitVec.ofInt 8 x).toNat = x.toNat := by
  rw [BitVec.toNat_ofInt]
  omega

/-- Outside -127 to 127 a value has no byte (R101). -/
theorem signMagnitudeEncode_eq_none {x : Int} (h : x < -127 ∨ 127 < x) : signMagnitudeEncode x = none := by
  unfold signMagnitudeEncode SM_MAX
  exact if_neg (by omega)

/-- The byte of a negative value: its magnitude with bit 7 set (R100, R101). -/
theorem signMagnitudeEncode_of_neg {x : Int} (hmin : -127 ≤ x) (hneg : x < 0) :
    ∃ b : Byte, b.toNat = 128 + (-x).toNat ∧ signMagnitudeEncode x = some b := by
  have hm : (BitVec.ofInt 8 (-x)).toNat = (-x).toNat := toNat_ofInt_byte (by omega) (by omega)
  refine ⟨0x80#8 ||| BitVec.ofInt 8 (-x), ?_, ?_⟩
  · rw [toNat_signBit_or (by omega), hm]
  · unfold signMagnitudeEncode SM_MAX
    rw [if_pos (by omega), if_pos hneg]

/-- The byte of a value that is not negative: the value itself (R100, R101). -/
theorem signMagnitudeEncode_of_nonneg {x : Int} (hpos : 0 ≤ x) (hmax : x ≤ 127) :
    ∃ b : Byte, (b.toNat : Int) = x ∧ signMagnitudeEncode x = some b := by
  refine ⟨BitVec.ofInt 8 x, ?_, ?_⟩
  · rw [toNat_ofInt_byte hpos (by omega), Int.toNat_of_nonneg hpos]
  · unfold signMagnitudeEncode SM_MAX
    rw [if_pos (by omega), if_neg (by omega)]

/-! ### The decoder in integers -/

/-- The magnitude is the low seven bits (R70). -/
theorem toNat_magnitude (b : Byte) : (magnitude b).toNat = b.toNat % 128 := by
  unfold magnitude
  rw [BitVec.toNat_setWidth_of_le (by omega), BitVec.toNat_and]
  exact Nat.and_two_pow_sub_one_eq_mod b.toNat 7

/-- A 32-bit word that holds less than `2 ^ 31` is not negative as a signed integer (R8). -/
theorem toInt_of_toNat_lt {w : I32} (h : w.toNat < 2 ^ 31) : w.toInt = w.toNat :=
  BitVec.toInt_eq_toNat_of_lt (by omega)

/-- Bit 7 clear: the value of the byte is the byte (R102). -/
theorem toInt_signMagnitudeDecode_of_lt {b : Byte} (h : b.toNat < 128) :
    (signMagnitudeDecode b).toInt = b.toNat := by
  have hs : signBit b = false := BitVec.msb_eq_false_iff_two_mul_lt.mpr (by omega)
  have hw : (b.setWidth 32 : I32).toNat = b.toNat := BitVec.toNat_setWidth_of_le (by omega)
  unfold signMagnitudeDecode
  rw [hs, if_neg Bool.false_ne_true, toInt_of_toNat_lt (by omega), hw]

/-- Bit 7 set: the value of the byte is minus its low seven bits (R102). -/
theorem toInt_signMagnitudeDecode_of_ge {b : Byte} (h : 128 ≤ b.toNat) :
    (signMagnitudeDecode b).toInt = -((b.toNat - 128 : Nat) : Int) := by
  have hs : signBit b = true := BitVec.msb_eq_true_iff_two_mul_ge.mpr (by omega)
  have hb := b.isLt
  have hm : (magnitude b).toNat = b.toNat - 128 := by rw [toNat_magnitude]; omega
  unfold signMagnitudeDecode
  rw [hs, if_pos rfl, BitVec.toInt_neg, toInt_of_toNat_lt (by omega), hm]
  exact Int.bmod_eq_of_le (by omega) (by omega)

/-- Both cases of the sign rule (R102). -/
theorem toInt_signMagnitudeDecode (b : Byte) :
    (signMagnitudeDecode b).toInt =
      if b.toNat < 128 then (b.toNat : Int) else -((b.toNat - 128 : Nat) : Int) := by
  split
  next h => exact toInt_signMagnitudeDecode_of_lt h
  next h => exact toInt_signMagnitudeDecode_of_ge (by omega)

/-- The decoder takes the byte of a value in range back to that value, on either side of zero (R103). -/
theorem signMagnitudeDecode_encode {v : I32} (hmin : -127 ≤ v.toInt) (hmax : v.toInt ≤ 127) :
    ∃ b : Byte, signMagnitudeEncode v.toInt = some b ∧ signMagnitudeDecode b = v := by
  obtain hneg | hpos := lt_or_ge v.toInt 0
  · obtain ⟨b, hb, he⟩ := signMagnitudeEncode_of_neg hmin hneg
    refine ⟨b, he, BitVec.eq_of_toInt_eq ?_⟩
    rw [toInt_signMagnitudeDecode_of_ge (by omega)]
    omega
  · obtain ⟨b, hb, he⟩ := signMagnitudeEncode_of_nonneg hpos hmax
    refine ⟨b, he, BitVec.eq_of_toInt_eq ?_⟩
    rw [toInt_signMagnitudeDecode_of_lt (by omega), hb]

/-! ### The requests -/

/-- `SMENC` of a value that has a byte responds with it and does nothing else (R101). -/
theorem exec_smenc_some {v : I32} {b : Byte} (h : signMagnitudeEncode v.toInt = some b) (s : State) :
    exec (.smenc v) s = .next (respond (.ok (.byte b)) s) := by
  simp only [exec, execSmenc, operandValue, h]
  rfl

/-- `SMENC` of a value that has no byte responds with `RangeError` and does nothing else (R101). -/
theorem exec_smenc_none {v : I32} (h : signMagnitudeEncode v.toInt = none) (s : State) :
    exec (.smenc v) s = .next (respond (.error .rangeError []) s) := by
  simp only [exec, execSmenc, operandValue, h]
  rfl

/-- `SMDEC` responds with the value of its operand and does nothing else (R102). -/
theorem exec_smdec (b : Byte) (s : State) :
    exec (.smdec b) s = .next (respond (.ok (.int (signMagnitudeDecode b))) s) := rfl

/-- Settles O8: the request is row 0x10 of the opcode map; the byte or its absence is the encoder's in each of the three
ranges, read off the whole 32-bit value; the one effect is the response. -/
theorem smencReturnsSignMagnitude : Obligations.SmencReturnsSignMagnitude := by
  unfold Obligations.SmencReturnsSignMagnitude
  refine ⟨fun _ => rfl, fun v s h => ?_, fun v s hmin hneg => ?_, fun v s hpos hmax => ?_⟩
  · exact exec_smenc_none (signMagnitudeEncode_eq_none h) s
  · obtain ⟨b, hb, he⟩ := signMagnitudeEncode_of_neg hmin hneg
    exact ⟨b, hb, exec_smenc_some he s⟩
  · obtain ⟨b, hb, he⟩ := signMagnitudeEncode_of_nonneg hpos hmax
    exact ⟨b, hb, exec_smenc_some he s⟩

/-- Settles O9: the request is row 0x11 of the opcode map; its one effect is the response, which carries the decoded
value. -/
theorem smdecReturnsValue : Obligations.SmdecReturnsValue := by
  unfold Obligations.SmdecReturnsValue
  exact ⟨fun _ => rfl, fun b s => ⟨signMagnitudeDecode b, toInt_signMagnitudeDecode b, exec_smdec b s⟩⟩

/-- Settles O10: the decoder undoes the encoder on the range, and each request responds with what its half answers. -/
theorem signMagnitudeRoundTripFromValue : Obligations.SignMagnitudeRoundTripFromValue := by
  unfold Obligations.SignMagnitudeRoundTripFromValue
  intro v s hmin hmax
  obtain ⟨b, he, hd⟩ := signMagnitudeDecode_encode hmin hmax
  refine ⟨b, exec_smenc_some he s, ?_⟩
  rw [exec_smdec, hd]
  rfl

end Sys2Proof.Machine
end

section
/-! Proofs about the Command Registry (spec 42_registry.md R111, R112). -/

namespace Sys2Proof.Machine

open Sys2Proof

/-! ### The registry is never written -/

/-- No instruction writes the configuration: six of the seven only respond, and a feed also writes the buffer (R111). -/
theorem exec_keeps_cfg {i : Instr} {s s' : State} (h : exec i s = .next s') : s'.cfg = s.cfg := by
  cases hf : feeds i with
  | false =>
    obtain ⟨r, hr, -⟩ := exec_pure hf s
    cases hr.symm.trans h
    exact respond_cfg r s
  | true =>
    obtain ⟨chunk, rfl⟩ := feeds_eq_true hf
    obtain hl | hl := Nat.lt_or_ge s.cfg.feedMax chunk.length
    · cases (exec_rxfeed_refused hl).symm.trans h
    · cases (exec_rxfeed hl).symm.trans h
      rfl

/-- A request that is served leaves the configuration: its answer is a response, and a feed also writes the feeder and
the buffer (R111). -/
theorem serveRequest_keeps_cfg {q : Nat} {r : Request} {s s' : State} (h : serveRequest q r s = .next s') :
    s'.cfg = s.cfg := by
  obtain ⟨-, rfl⟩ | ⟨_, _, -, -, rfl, -⟩ | ⟨_, -, -, -, rfl⟩ := serveRequest_cases h
  · rfl
  · rfl
  · rfl

/-- A step leaves the configuration, whether it idles, resets or serves a request (R111). -/
theorem step_keeps_cfg {s s' : State} (h : step s = .next s') : s'.cfg = s.cfg := by
  obtain ⟨-, rfl⟩ | ⟨_, -, rfl⟩ | ⟨_, _, rest, -, hserve⟩ := step_cases h
  · rfl
  · rfl
  · exact serveRequest_keeps_cfg (s := { s with port := rest }) hserve

/-- Settles O14: each way a step or an instruction can answer, and reset, leaves the configuration. -/
theorem noStepChangesConfiguration : Obligations.NoStepChangesConfiguration := by
  unfold Obligations.NoStepChangesConfiguration
  exact ⟨fun _ _ => step_keeps_cfg, fun _ _ _ => exec_keeps_cfg, applyReset_cfg⟩

/-! ### The request -/

/-- `REGLEN` responds with the registry's entry for its operand and does nothing else (R112). -/
theorem exec_reglen (cmd : Byte) (s : State) :
    exec (.reglen cmd) s = .next (respond (.ok (.len (registryLookup s.cfg.registry cmd))) s) := rfl

/-- Settles O15: the request is row 0x20 of the opcode map; its one effect is the response, which carries the entry; the
worked example is that response under a registry with the heartbeat entry. -/
theorem reglenReturnsEntry : Obligations.ReglenReturnsEntry := by
  unfold Obligations.ReglenReturnsEntry
  refine ⟨fun _ => rfl, exec_reglen, fun s h => ?_⟩
  rw [exec_reglen, h]
  rfl

end Sys2Proof.Machine
end

section
/-! Proofs about the Frame Codec's requests (spec 43_frame_codec.md R120, R124, R130, R133). -/

namespace Sys2Proof.Machine

open Sys2Proof Sys2Proof.Spec

/-! ### `FENC` -/

/-- The payloads a registered length refuses: those that are there and have another length (R120 step 2). -/
theorem payloadFor_eq_none_iff {n : Byte} {payload : Bytes} :
    payloadFor n payload = none ↔ payload ≠ [] ∧ payload.length ≠ n.toNat := by
  rw [← List.length_pos_iff]
  unfold payloadFor
  split
  next hfill => exact iff_of_false nofun (by omega)
  next hfill =>
    split
    next hl => exact iff_of_true rfl ⟨by omega, hl⟩
    next hl => exact iff_of_false nofun fun h => hl h.2

/-- Every other payload is sent, with an omitted one zero filled (R120 step 2). -/
theorem payloadFor_eq_some {n : Byte} {payload : Bytes} (h : payload = [] ∨ payload.length = n.toNat) :
    payloadFor n payload = some (filled n payload) := by
  cases hp : payloadFor n payload with
  | none =>
    obtain ⟨hne, hl⟩ := payloadFor_eq_none_iff.mp hp
    exact absurd h (not_or.mpr ⟨hne, hl⟩)
  | some p => rw [payloadFor_eq_filled hp]

/-- The registry is read first: an unregistered command has no frame, whatever the payload (R194). -/
theorem encodeFrame_unregistered {reg : Registry} {command : Byte} (h : registryLookup reg command = none)
    (senderId : Byte) (payload : Bytes) :
    encodeFrame reg senderId command payload = .error .unknownCommand := by
  simp only [encodeFrame, h]

/-- A registered command has no frame around a payload that its length refuses (R120 step 2). -/
theorem encodeFrame_badPayload {reg : Registry} {command n : Byte} {payload : Bytes}
    (h : registryLookup reg command = some n) (hp : payloadFor n payload = none) (senderId : Byte) :
    encodeFrame reg senderId command payload = .error .payloadLengthMismatch := by
  simp only [encodeFrame, h, hp]

/-- A registered command's frame is built around the payload that is sent (R120 steps 3 to 5). -/
theorem encodeFrame_built {reg : Registry} {command n : Byte} {payload p : Bytes}
    (h : registryLookup reg command = some n) (hp : payloadFor n payload = some p) (senderId : Byte) :
    encodeFrame reg senderId command payload = .ok (buildFrame senderId command n p) := by
  simp only [encodeFrame, h, hp]

/-- `FENC` responds with the frame it builds and does nothing else (R120). -/
theorem exec_fenc_ok {senderId command : Byte} {payload f : Bytes} {s : State}
    (h : encodeFrame s.cfg.registry senderId command payload = .ok f) :
    exec (.fenc senderId command payload) s = .next (respond (.ok (.bytes f)) s) := by
  simp only [exec, execFenc, h]
  rfl

/-- `FENC` responds with the error of a frame it cannot build, without diagnostic bytes, and does nothing else (R124). -/
theorem exec_fenc_error {senderId command : Byte} {payload : Bytes} {k : ErrorKind} {s : State}
    (h : encodeFrame s.cfg.registry senderId command payload = .error k) :
    exec (.fenc senderId command payload) s = .next (respond (.error k []) s) := by
  simp only [exec, execFenc, h]
  rfl

/-- Settles O18: the request is row 0x30 of the opcode map; the registry's answer and then the payload decide between
the two errors and the built frame; the CRC's two bytes are its high and its low one. -/
theorem fencReturnsFrameOrError : Obligations.FencReturnsFrameOrError := by
  unfold Obligations.FencReturnsFrameOrError
  refine ⟨fun _ _ _ => rfl, fun sender command payload s hreg => ?_,
    fun sender command n payload s hreg hne hl => ?_, fun sender command n payload s hreg hp => ?_⟩
  · exact exec_fenc_error (encodeFrame_unregistered hreg sender payload)
  · exact exec_fenc_error (encodeFrame_badPayload hreg (payloadFor_eq_none_iff.mpr ⟨hne, hl⟩) sender)
  · rw [exec_fenc_ok (encodeFrame_built hreg (payloadFor_eq_some hp) sender), shift_eq_hiByte, setWidth_eq_loByte]
    rfl

/-! ### `FDEC` -/

/-- `LEN` as the statement reads it (R64). -/
theorem getD_three_toNat (span : Bytes) : (span.getD 3 0).toNat = lenField span := rfl

/-- `END` is looked for at offset `6 + L` (R60). -/
theorem endField_eq_getD (span : Bytes) : endField span = span.getD (6 + lenField span) 0 := by
  rw [show 6 + lenField span = 4 + lenField span + 2 by omega]
  rfl

/-- The transmitted CRC in numbers, from offsets `4 + L` and `5 + L` (R63). -/
theorem toNat_crcField (span : Bytes) :
    (crcField span).toNat =
      256 * (span.getD (4 + lenField span) 0).toNat + (span.getD (5 + lenField span) 0).toNat := by
  rw [show 5 + lenField span = 4 + lenField span + 1 by omega]
  exact toNat_wordOfBytes _ _

/-- The CRC check compares two words, and these differ exactly when their numbers do (R130 step 6). -/
theorem crc_ne_crcField_iff (span : Bytes) :
    crc16 (coveredBytes span) ≠ crcField span ↔
      (crc16 (span.take (4 + lenField span))).toNat ≠
        256 * (span.getD (4 + lenField span) 0).toNat + (span.getD (5 + lenField span) 0).toNat := by
  rw [← toNat_crcField, BitVec.toNat_ne_iff_ne]
  rfl

/-- The frame record of a span whose CRC is right: its `crc` is the checksum (R130 step 7). -/
theorem frameFields_of_crc {span : Bytes} (h : crc16 (coveredBytes span) = crcField span) :
    frameFields span =
      { senderId := span.getD 1 0, command := span.getD 2 0, length := span.getD 3 0,
        payload := (span.drop 4).take (lenField span), crc := crc16 (span.take (4 + lenField span)) } := by
  rw [frameFields, ← h, slice, List.drop_take, Nat.add_sub_cancel_left]
  rfl

/-- `FDEC` responds with the frame of its span and does nothing else (R130). -/
theorem exec_fdec_ok {span : Bytes} {f : Frame} (h : decodeFrame span = .ok f) (s : State) :
    exec (.fdec span) s = .next (respond (.ok (.frame f)) s) := by
  simp only [exec, execFdec, h]
  rfl

/-- `FDEC` responds with the error of its span and the whole span, and does nothing else (R133). -/
theorem exec_fdec_error {span : Bytes} {k : ErrorKind} (h : decodeFrame span = .error k) (s : State) :
    exec (.fdec span) s = .next (respond (.error k span) s) := by
  simp only [exec, execFdec, h]
  rfl

/-- Settles O20: the request is row 0x31 of the opcode map; the statement's checks are the decoder's, one by one, with
`END` and the CRC read at their offsets; the frame's CRC field is the checksum, by the last check. -/
theorem fdecChecksInOrder : Obligations.FdecChecksInOrder := by
  unfold Obligations.FdecChecksInOrder
  refine ⟨fun _ => rfl, fun span s => ?_⟩
  simp only [getD_three_toNat, ← endField_eq_getD, ← crc_ne_crcField_iff]
  split
  next hshort => exact exec_fdec_error (if_pos hshort) s
  next hshort =>
    have past_short : decodeFrame span = _ := if_neg hshort
    split
    next hlen => exact exec_fdec_error (past_short.trans (if_pos hlen)) s
    next hlen =>
      have past_len := past_short.trans (if_neg hlen)
      split
      next hstart => exact exec_fdec_error (past_len.trans (if_pos hstart)) s
      next hstart =>
        have past_start := past_len.trans (if_neg hstart)
        split
        next hend => exact exec_fdec_error (past_start.trans (if_pos hend)) s
        next hend =>
          have past_end := past_start.trans (if_neg hend)
          split
          next hcrc => exact exec_fdec_error (past_end.trans (if_pos hcrc)) s
          next hcrc =>
            have accepted := past_end.trans (if_neg hcrc)
            rw [exec_fdec_ok accepted, frameFields_of_crc (not_not.mp hcrc)]
            rfl

end Sys2Proof.Machine
end

section
/-! Proofs about the Stream Reassembler's parse loop (spec 44_reassembler.md R150 to R159, R161, R165). -/

namespace Sys2Proof.Machine

open Sys2Proof Sys2Proof.Spec

/-! ### The request -/

/-- The converse of `exec_rxfeed`: when a feed answers a next state, its chunk is legal, and that state is the run's. -/
theorem exec_rxfeed_next {chunk : Bytes} {s t : State} (h : exec (.rxfeed chunk) s = .next t) :
    chunk.length ≤ s.cfg.feedMax ∧
      t = respond (.ok (.outcomes (parseBuffer s.cfg.registry (s.buf ++ chunk)).1))
        { s with buf := (parseBuffer s.cfg.registry (s.buf ++ chunk)).2 } := by
  obtain hl | hl := Nat.lt_or_ge s.cfg.feedMax chunk.length
  · cases (exec_rxfeed_refused hl).symm.trans h
  · cases (exec_rxfeed hl).symm.trans h
    exact ⟨hl, rfl⟩

/-! ### What a pass rejects -/

/-- Step 2: a wrong first byte is rejected at once (R153). -/
theorem scanFront_badStart (reg : Registry) {b : Byte} (hb : b ≠ START) (rest : Bytes) :
    scanFront reg (b :: rest) = .reject .invalidStart ((b :: rest).take DIAG_MAX) := by
  have hfirst : byteAt (b :: rest) 0 ≠ START := hb
  unfold scanFront
  rw [if_neg nofun, if_pos hfirst]

/-- Step 4: a whole header with an unregistered command is rejected, whatever follows it (R155). -/
theorem scanFront_unregistered {reg : Registry} {c : Byte} (hr : registryLookup reg c = none) (sender len : Byte)
    (rest : Bytes) :
    scanFront reg (START :: sender :: c :: len :: rest) =
      .reject .undefinedCommand ((START :: sender :: c :: len :: rest).take DIAG_MAX) := by
  have hfirst : ¬ byteAt (START :: sender :: c :: len :: rest) 0 ≠ START := not_not.mpr rfl
  have hheader : ¬ (START :: sender :: c :: len :: rest).length < HDR_LEN := Nat.not_lt.mpr (Nat.le_add_left 4 _)
  have hcommand : registryLookup reg (byteAt (START :: sender :: c :: len :: rest) 2) = none := hr
  unfold scanFront
  rw [if_neg nofun, if_neg hfirst, if_neg hheader, if_pos hcommand]

/-- Steps 6 to 8: on a whole candidate with a registered command only the end marker and the CRC are left to check. -/
theorem scanFront_candidate {reg : Registry} {c len : Byte} {p : Bytes} (hr : registryLookup reg c ≠ none)
    (hp : p.length = len.toNat) (sender hi lo last : Byte) (rest : Bytes) :
    scanFront reg (layout START sender c len p hi lo last rest) =
      if last ≠ END then .reject .endMarkerMismatch (layout START sender c len p hi lo last [])
      else if crc16 ([START, sender, c, len] ++ p) ≠ wordOfBytes hi lo then
        .reject .crcMismatch (layout START sender c len p hi lo last [])
      else
        .accept { senderId := sender, command := c, length := len, payload := p, crc := wordOfBytes hi lo }
          (7 + len.toNat) := by
  have hl := length_layout START sender c hi lo last rest hp
  have hheader : ¬ (layout START sender c len p hi lo last rest).length < HDR_LEN :=
    Nat.not_lt.mpr (Nat.le_add_left 4 _)
  unfold scanFront
  rw [if_neg nofun, byteAt_layout_zero, if_neg (not_not.mpr rfl), if_neg hheader,
    byteAt_layout_two, if_neg hr, totalLen_layout, if_neg (by omega), endField_layout _ _ _ _ _ _ _ hp,
    coveredBytes_layout _ _ _ _ _ _ _ hp, crcField_layout _ _ _ _ _ _ _ hp, take_layout _ _ _ _ _ _ _ hp,
    frameFields_layout _ _ _ _ _ _ _ hp]

/-! ### The loop and its relation -/

/-- The relation writes a candidate span and what follows it field by field. -/
theorem wire_eq_layout (start sender c len : Byte) (p : Bytes) (hi lo last : Byte) (rest : Bytes) :
    [start, sender, c, len] ++ p ++ [hi, lo, last] ++ rest = layout start sender c len p hi lo last rest := by
  simp [layout]

/-- A candidate span alone has nothing behind it. -/
theorem span_eq_layout (start sender c len : Byte) (p : Bytes) (hi lo last : Byte) :
    [start, sender, c, len] ++ p ++ [hi, lo, last] = layout start sender c len p hi lo last [] := by
  rw [← wire_eq_layout, List.append_nil]

/-- A run accepts a whole frame with a registered command and the right CRC, and goes on behind it (R159). -/
theorem parseBuffer_frame {reg : Registry} {c len : Byte} {p : Bytes} {sender hi lo : Byte}
    (hr : registryLookup reg c ≠ none) (hp : p.length = len.toNat)
    (hc : crc16 ([START, sender, c, len] ++ p) = wordOfBytes hi lo) (rest : Bytes) :
    parseBuffer reg (layout START sender c len p hi lo END rest) =
      (.frame { senderId := sender, command := c, length := len, payload := p, crc := wordOfBytes hi lo } ::
        (parseBuffer reg rest).1, (parseBuffer reg rest).2) := by
  rw [parseBuffer_accept (scanFront_layout reg sender c len p hi lo rest hp hr hc), drop_layout _ _ _ _ _ _ _ hp]

/-- Whatever the relation derives for a buffer, the loop computes: the relation is functional (R150). -/
theorem parseBuffer_of_rxLoop {reg : Registry} {buf : Bytes} {out : List RxOutcome} {left : Bytes}
    (h : RxLoop reg buf out left) : parseBuffer reg buf = (out, left) := by
  induction h with
  | empty => exact parseBuffer_wait rfl
  | badStart b rest hb => exact parseBuffer_reject (scanFront_badStart reg hb rest)
  | shortHeader rest hl =>
    have hlen : (START :: rest).length < 4 := Nat.succ_lt_succ hl
    exact parseBuffer_wait ((scanFront_wait_iff reg _).mpr (.inr (.inl ⟨rfl, hlen⟩)))
  | unregistered sender c len rest hr => exact parseBuffer_reject (scanFront_unregistered hr sender len rest)
  | shortBody sender c len rest hr hl =>
    have hlen : (START :: sender :: c :: len :: rest).length < 7 + len.toNat := by simp only [List.length_cons]; omega
    exact parseBuffer_wait ((scanFront_wait_iff reg _).mpr (.inr (.inr ⟨rfl, Nat.le_add_left 4 _, hr, hlen⟩)))
  | badEnd sender c len p hi lo e rest hr hp he =>
    rw [wire_eq_layout, span_eq_layout]
    exact parseBuffer_reject ((scanFront_candidate hr hp sender hi lo e rest).trans (if_pos he))
  | badCrc sender c len p hi lo rest hr hp hc =>
    rw [← wordOfBytes_eq_append] at hc
    rw [wire_eq_layout, span_eq_layout]
    refine parseBuffer_reject ((scanFront_candidate hr hp sender hi lo END rest).trans ?_)
    rw [if_neg (not_not.mpr rfl), if_pos hc]
  | frame sender c len p hi lo rest hr hp hc out left again ih =>
    rw [← wordOfBytes_eq_append] at hc ⊢
    rw [wire_eq_layout, parseBuffer_frame hr hp hc, ih]

/-- Steps 6 to 8: a whole candidate with a registered command has an exit, or the loop goes on behind it. -/
theorem rxLoop_candidate {reg : Registry} {c len : Byte} {p : Bytes} (hr : registryLookup reg c ≠ none)
    (hp : p.length = len.toNat) (sender hi lo last : Byte) {rest : Bytes}
    (again : ∃ out left, RxLoop reg rest out left) :
    ∃ out left, RxLoop reg (layout START sender c len p hi lo last rest) out left := by
  rw [← wire_eq_layout]
  by_cases he : last = END
  · subst he
    by_cases hc : crc16 ([START, sender, c, len] ++ p) = hi ++ lo
    · obtain ⟨out, left, hrest⟩ := again
      exact ⟨_, _, .frame sender c len p hi lo rest hr hp hc out left hrest⟩
    · exact ⟨_, _, .badCrc sender c len p hi lo rest hr hp hc⟩
  · exact ⟨_, _, .badEnd sender c len p hi lo last rest hr hp he⟩

/-- The relation derives something for every buffer: the exits of steps 1 to 8 leave none out, and each pass that goes
on is behind a frame (R160). -/
theorem rxLoop_total (reg : Registry) (buf : Bytes) : ∃ out left, RxLoop reg buf out left := by
  induction hn : buf.length using Nat.strong_induction_on generalizing buf with
  | _ n ih =>
    match buf with
    | [] => exact ⟨_, _, .empty⟩
    | b :: rest =>
      by_cases hb : b = START
      · subst hb
        match rest with
        | [] | [_] | [_, _] => exact ⟨_, _, .shortHeader _ (by simp)⟩
        | sender :: c :: len :: tail =>
          by_cases hr : registryLookup reg c = none
          · exact ⟨_, _, .unregistered sender c len tail hr⟩
          by_cases hl : tail.length < len.toNat + 3
          · exact ⟨_, _, .shortBody sender c len tail hr hl⟩
          have hwhole : totalLen (START :: sender :: c :: len :: tail) ≤
              (START :: sender :: c :: len :: tail).length := by
            change 7 + len.toNat ≤ tail.length + 4
            omega
          obtain ⟨start, sender', c', len', p, hi, lo, last, behind, hbuf, hp⟩ := layout_of_totalLen_le hwhole
          have hlen := length_layout start sender' c' hi lo last behind hp
          rw [hbuf] at hn ⊢
          cases hbuf
          exact rxLoop_candidate hr hp sender hi lo last (ih behind.length (by omega) behind rfl)
      · exact ⟨_, _, .badStart b rest hb⟩

/-- The relation is the loop: it derives what the loop computes and nothing else (R150). -/
theorem rxLoop_iff (reg : Registry) (buf : Bytes) (out : List RxOutcome) (left : Bytes) :
    RxLoop reg buf out left ↔ out = (parseBuffer reg buf).1 ∧ left = (parseBuffer reg buf).2 := by
  constructor
  · intro h
    rw [parseBuffer_of_rxLoop h]
    exact ⟨rfl, rfl⟩
  · rintro ⟨rfl, rfl⟩
    obtain ⟨out, left, h⟩ := rxLoop_total reg buf
    rwa [parseBuffer_of_rxLoop h]

/-- Settles O24: the request is row 0x40 of the opcode map; a legal chunk's run is the loop's on the buffer followed by
the chunk, and the relation derives exactly that run. -/
theorem rxfeedRunsParseLoop : Obligations.RxfeedRunsParseLoop := by
  unfold Obligations.RxfeedRunsParseLoop
  exact ⟨fun _ => rfl, fun chunk s h => ⟨_, _, exec_rxfeed h, rxLoop_iff s.cfg.registry (s.buf ++ chunk)⟩⟩

/-! ### Resynchronisation -/

/-- A run's outcomes are frames, or frames and then one error with nothing left in the buffer (R161). -/
theorem parseBuffer_frames_then_error (reg : Registry) (buf : Bytes) :
    ∃ fs : List Frame, (parseBuffer reg buf).1 = fs.map .frame ∨
      ∃ k d, (parseBuffer reg buf).1 = fs.map .frame ++ [.error k d] ∧ (parseBuffer reg buf).2 = [] := by
  refine parseBuffer_induction (P := fun _ out left => ∃ fs : List Frame, out = fs.map .frame ∨
    ∃ k d, out = fs.map .frame ++ [.error k d] ∧ left = []) ?wait ?reject ?accept buf
  case wait => exact fun _ _ => ⟨[], .inl rfl⟩
  case reject => exact fun _ k d _ => ⟨[], .inr ⟨k, d, rfl, rfl⟩⟩
  case accept =>
    rintro _ f _ _ _ - ⟨fs, rfl | ⟨k, d, rfl, hleft⟩⟩
    · exact ⟨f :: fs, .inl rfl⟩
    · exact ⟨f :: fs, .inr ⟨k, d, rfl, hleft⟩⟩

/-- Settles O27: a feed that answers has run the loop, and each run's outcomes are of the two forms. -/
theorem rxfeedErrorIsLastAndClears : Obligations.RxfeedErrorIsLastAndClears := by
  unfold Obligations.RxfeedErrorIsLastAndClears
  intro chunk s t h
  obtain ⟨-, rfl⟩ := exec_rxfeed_next h
  obtain ⟨fs, hout | ⟨k, d, hout, hleft⟩⟩ := parseBuffer_frames_then_error s.cfg.registry (s.buf ++ chunk)
  · exact ⟨fs, .inl (by rw [respond_responses, hout])⟩
  · exact ⟨fs, .inr ⟨k, d, by rw [respond_responses, hout], hleft⟩⟩

/-! ### What the loop does not check -/

/-- A pass reads of the registry only which commands it has (R165). -/
theorem scanFront_congr {reg reg' : Registry}
    (h : ∀ c, (registryLookup reg c).isSome = (registryLookup reg' c).isSome) : scanFront reg = scanFront reg' := by
  have hnone (c : Byte) : registryLookup reg c = none ↔ registryLookup reg' c = none := by
    rw [← Option.not_isSome_iff_eq_none, h, Option.not_isSome_iff_eq_none]
  funext buf
  unfold scanFront
  simp only [hnone]

/-- A run reads of the registry only which commands it has (R165). -/
theorem parseBuffer_congr {reg reg' : Registry}
    (h : ∀ c, (registryLookup reg c).isSome = (registryLookup reg' c).isSome) (buf : Bytes) :
    parseBuffer reg buf = parseBuffer reg' buf := by
  have hscan := scanFront_congr h
  refine parseBuffer_induction (P := fun buf out left => (out, left) = parseBuffer reg' buf) ?wait ?reject ?accept buf
  case wait => exact fun _ hw => (parseBuffer_wait (hscan ▸ hw)).symm
  case reject => exact fun _ _ _ hr => (parseBuffer_reject (hscan ▸ hr)).symm
  case accept =>
    intro _ _ _ _ _ ha ih
    rw [parseBuffer_accept (hscan ▸ ha), ← ih]

/-- The bytes of a frame record have the layout of R60. -/
theorem frameBytes_eq_layout (f : Frame) :
    frameBytes f =
      layout START f.senderId f.command f.length f.payload (hiByte f.crc) (loByte f.crc) END [] := by
  rw [← span_eq_layout, ← shift_eq_hiByte, ← setWidth_eq_loByte]
  rfl

/-- A run on the bytes of a receivable frame emits that frame and goes on behind it, whatever `LEN` is (R159, R165). -/
theorem parseBuffer_frameBytes {reg : Registry} {f : Frame} (h : ReceivableFrame reg f) :
    parseBuffer reg (frameBytes f) = ([.frame f], []) := by
  obtain ⟨hp, hr, hc⟩ := h
  rw [frameBytes_eq_layout, parseBuffer_frame hr hp (by rw [wordOfBytes_hi_lo, hc]), wordOfBytes_hi_lo,
    parseBuffer_wait rfl]

/-- Settles O32: the run does not see the registered lengths, and the bytes of a receivable frame run to that frame. -/
theorem lenIsNotComparedWithRegistry : Obligations.LenIsNotComparedWithRegistry := by
  unfold Obligations.LenIsNotComparedWithRegistry
  refine ⟨fun chunk s reg hl hreg => ⟨_, _, exec_rxfeed hl, ?_⟩, fun f s hf hl hbuf => ?_⟩
  · rw [← parseBuffer_congr hreg]
    exact exec_rxfeed hl
  · rw [exec_rxfeed hl, hbuf, List.nil_append, parseBuffer_frameBytes hf, ← hbuf]
    rfl

end Sys2Proof.Machine
end

section
/-! Proofs about the reset input (spec 70_reset_and_hazards.md R210). -/

namespace Sys2Proof.Machine

open Sys2Proof

/-- A reset at the head of the port is taken off and applied (R211). -/
theorem step_reset {rest : List PortInput} {s : State} (h : s.port = .reset :: rest) :
    step s = .next (applyReset { s with port := rest }) := by
  unfold step serveNext
  rw [h]

/-- Settles O46: the step applies reset, which writes only the buffer, and the empty buffer is `Seeking` under the
registry that stands. -/
theorem resetInputClearsBufferOnly : Obligations.ResetInputClearsBufferOnly := by
  unfold Obligations.ResetInputClearsBufferOnly
  intro s rest hport
  refine ⟨applyReset { s with port := rest }, step_reset hport, rfl, ?_⟩
  rw [applyReset_buf, parseState_nil]

end Sys2Proof.Machine
end

section
/-! Proofs about the CRC16 Engine's guarantees and the byte order of the CRC (spec 40_crc16.md section 4, 20_memory.md
R43, 30_encoding.md R63). -/

namespace Sys2Proof.Machine

open Sys2Proof Sys2Proof.Spec

/-! ### A flipped bit -/

/-- A bit inside a byte, flipped, gives another byte. -/
theorem xor_bit_ne {k : Nat} (hk : k < 8) (b : Byte) : b ^^^ (1#8 <<< k) ≠ b := by
  intro h
  have hbit := congrArg (fun v : Byte => v.getLsbD k) h
  simp [hk] at hbit

theorem length_flipBit (s : Bytes) (i k : Nat) : (flipBit s i k).length = s.length := List.length_modify _ _ _

/-- A bit flipped behind a front part leaves the front part. -/
theorem flipBit_append_right (pre s : Bytes) (i k : Nat) :
    flipBit (pre ++ s) (pre.length + i) k = pre ++ flipBit s i k :=
  List.modifyTailIdx_add _ i pre s

/-- A bit flipped in a front part leaves what follows. -/
theorem flipBit_append_left {s : Bytes} {i : Nat} (hi : i < s.length) (post : Bytes) (k : Nat) :
    flipBit (s ++ post) i k = flipBit s i k ++ post := by
  unfold flipBit
  rw [List.modify_eq_take_cons_drop hi, List.modify_eq_take_cons_drop (by rw [List.length_append]; omega),
    List.take_append_of_le_length hi.le, List.drop_append_of_le_length hi, List.getElem_append_left hi,
    List.append_assoc, List.cons_append]

/-- The checksum separates a sequence from itself with one bit flipped (40_crc16.md section 4). -/
theorem crc16_flipBit_ne {data : Bytes} {i k : Nat} (hi : i < data.length) (hk : k < 8) :
    crc16 (flipBit data i k) ≠ crc16 data := by
  obtain ⟨pre, b, post, rfl, -, hflip⟩ := List.exists_of_modify (fun b => b ^^^ (1#8 <<< k)) hi
  rw [flipBit, hflip]
  exact crc16_one_byte_changed pre post (xor_bit_ne hk b)

/-- Settles O5: a flipped bit changes exactly one byte, and the checksum separates sequences that differ in one. -/
theorem flippedBitChangesChecksum : Obligations.FlippedBitChangesChecksum := by
  unfold Obligations.FlippedBitChangesChecksum
  exact fun _ _ _ => crc16_flipBit_ne

/-! ### The residue -/

/-- A step with the accumulator's own high byte moves the low byte up: the high half cancels before the rounds. -/
theorem crcStep_hiByte (w : Word16) : crcStep w (hiByte w) = (loByte w).setWidth 16 <<< 8 := by
  rw [crcStep, xor_hiByte, crcRounds_low_byte]

/-- A step with the byte that is all the accumulator holds cancels it. -/
theorem crcStep_cancel (b : Byte) : crcStep (b.setWidth 16 <<< 8) b = 0#16 := by
  rw [crcStep, BitVec.xor_self, crcRounds_zero]

/-- Settles O6: the checksum's high byte moves its low byte up, and the low byte then cancels it. -/
theorem checksumResidueIsZero : Obligations.ChecksumResidueIsZero := by
  unfold Obligations.ChecksumResidueIsZero
  intro m
  rw [shift_eq_hiByte, setWidth_eq_loByte, crc16_append, List.foldl_cons, List.foldl_cons, List.foldl_nil,
    crcStep_hiByte, crcStep_cancel]

/-! ### The worked traces -/

/-- Settles O4: the rounds and the four steps are evaluated. -/
theorem crcTracesOfHeartbeat : Obligations.CrcTracesOfHeartbeat := by
  unfold Obligations.CrcTracesOfHeartbeat
  decide +kernel

/-! ### The bytes of a CRC -/

theorem toNat_hiByte (w : Word16) : (hiByte w).toNat = w.toNat / 256 := by
  have hw := w.isLt
  rw [hiByte, BitVec.extractLsb'_toNat, Nat.shiftRight_eq_div_pow]
  omega

theorem toNat_loByte (w : Word16) : (loByte w).toNat = w.toNat % 256 := by
  rw [loByte, BitVec.extractLsb'_toNat, Nat.shiftRight_zero]

/-- Settles O7: the value of the field and of its two bytes in numbers, and that they read back. -/
theorem crcFieldIsHighByteFirst : Obligations.CrcFieldIsHighByteFirst := by
  unfold Obligations.CrcFieldIsHighByteFirst
  exact ⟨toNat_wordOfBytes, fun w => ⟨toNat_hiByte w, toNat_loByte w, wordOfBytes_hi_lo w⟩⟩

end Sys2Proof.Machine
end

section
/-! Proofs about the Frame Codec's round trip and its check of the CRC (spec 43_frame_codec.md sections 2 and 3). -/

namespace Sys2Proof.Machine

open Sys2Proof Sys2Proof.Spec

/-! ### The frames that are read -/

/-- The decoder on a span between the right markers: only the CRC is left to check. -/
theorem decodeFrame_marked {len : Byte} {p : Bytes} (hp : p.length = len.toNat) (sender c hi lo : Byte) :
    decodeFrame (layout START sender c len p hi lo END []) =
      if crc16 ([START, sender, c, len] ++ p) ≠ wordOfBytes hi lo then .error .crcMismatch
      else .ok
        { senderId := sender, command := c, length := len, payload := p, crc := wordOfBytes hi lo } := by
  rw [decodeFrame_layout _ _ _ _ _ _ _ _ hp, if_neg (not_not.mpr rfl), if_neg (not_not.mpr rfl)]

/-- A built frame is read back (R130 of R120). -/
theorem decodeFrame_buildFrame {n : Byte} {p : Bytes} (hp : p.length = n.toNat) (sender command : Byte) :
    decodeFrame (buildFrame sender command n p) =
      .ok { senderId := sender, command := command, length := n, payload := p,
            crc := crc16 ([START, sender, command, n] ++ p) } := by
  rw [buildFrame_layout, decodeFrame_marked hp, wordOfBytes_hi_lo, if_neg (not_not.mpr rfl)]

/-- Settles O22: the payload is sent filled, the frame is built around it, and the decoder reads a built frame back. -/
theorem frameRoundTrip : Obligations.FrameRoundTrip := by
  unfold Obligations.FrameRoundTrip
  intro sender command n payload s hreg hp
  have hpay := payloadFor_eq_some hp
  exact ⟨_, exec_fenc_ok (encodeFrame_built hreg hpay sender),
    exec_fdec_ok (decodeFrame_buildFrame (payloadFor_length hpay) sender command) s⟩

/-- The bytes of a frame record whose length and CRC are right are read back as it (R130). -/
theorem decodeFrame_frameBytes {f : Frame} (h : frameOk f) : decodeFrame (frameBytes f) = .ok f := by
  obtain ⟨hp, hc⟩ := h
  rw [frameBytes_eq_layout, decodeFrame_marked hp, wordOfBytes_hi_lo, if_neg (not_not.mpr hc.symm)]

/-- The decoder accepts exactly the bytes of the frame records whose length and CRC are right (R130). -/
theorem decodeFrame_eq_ok_iff (span : Bytes) (f : Frame) :
    decodeFrame span = .ok f ↔ span = frameBytes f ∧ frameOk f := by
  constructor
  · intro h
    obtain ⟨-, hd⟩ | ⟨-, -, hd⟩ | ⟨start, sender, c, len, p, hi, lo, last, rfl, hp⟩ := decodeFrame_cases span
    · cases hd.symm.trans h
    · cases hd.symm.trans h
    rw [decodeFrame_layout _ _ _ _ _ _ _ _ hp] at h
    split at h
    · cases h
    next hstart =>
      split at h
      · cases h
      next hend =>
        split at h
        · cases h
        next hcrc =>
          cases not_not.mp hstart
          cases not_not.mp hend
          cases h
          rw [frameBytes_eq_layout, hiByte_wordOfBytes, loByte_wordOfBytes]
          exact ⟨rfl, hp, (not_not.mp hcrc).symm⟩
  · rintro ⟨rfl, hf⟩
    exact decodeFrame_frameBytes hf

/-- `FDEC` responds with a frame exactly when the decoder answers it. -/
theorem exec_fdec_frame_iff (span : Bytes) (f : Frame) (s : State) :
    exec (.fdec span) s = .next (respond (.ok (.frame f)) s) ↔ decodeFrame span = .ok f := by
  refine ⟨fun h => ?_, fun h => exec_fdec_ok h s⟩
  cases hd : decodeFrame span with
  | error k =>
    have hr := (exec_fdec_error hd s).symm.trans h
    simp [respond] at hr
  | ok g =>
    have hr := (exec_fdec_ok hd s).symm.trans h
    simpa [respond] using hr

/-- Settles O21: the request responds with a frame when the decoder does, and the decoder accepts frames' bytes only. -/
theorem fdecAcceptsExactlyFrames : Obligations.FdecAcceptsExactlyFrames := by
  unfold Obligations.FdecAcceptsExactlyFrames
  intro span f s
  exact (exec_fdec_frame_iff span f s).trans (decodeFrame_eq_ok_iff span f)

/-! ### A flipped payload bit -/

/-- A bit flipped in the payload's place leaves the rest of the layout. -/
theorem flipBit_layout {p : Bytes} {i : Nat} (hi : i < p.length) (start sender c len hiCrc loCrc last : Byte)
    (rest : Bytes) (k : Nat) :
    flipBit (layout start sender c len p hiCrc loCrc last rest) (4 + i) k =
      layout start sender c len (flipBit p i k) hiCrc loCrc last rest := by
  have hhead := flipBit_append_right [start, sender, c, len] (p ++ hiCrc :: loCrc :: last :: rest) i k
  rw [flipBit_append_left hi] at hhead
  exact hhead

/-- The checksum of the covered bytes changes with a flipped payload bit (R62). -/
theorem crc16_flipped_payload_ne {p : Bytes} {i k : Nat} (hi : i < p.length) (hk : k < 8) (head : Bytes) :
    crc16 (head ++ flipBit p i k) ≠ crc16 (head ++ p) := by
  rw [← flipBit_append_right]
  exact crc16_flipBit_ne (by rw [List.length_append]; omega) hk

/-- Settles O23: the span is a built frame; the flipped bit stays inside its payload, so both markers and the length
stand, and the transmitted CRC is the one of the payload before. -/
theorem fdecReportsFlippedPayloadBit : Obligations.FdecReportsFlippedPayloadBit := by
  unfold Obligations.FdecReportsFlippedPayloadBit
  intro sender command n payload f s i k hreg h hi hk
  obtain ⟨n', p, hn', hpay, rfl⟩ := encodeFrame_ok (encodeFrame_of_exec_fenc h rfl)
  cases hreg.symm.trans hn'
  have hp := payloadFor_length hpay
  have hip : i < p.length := hp ▸ hi
  refine exec_fdec_error ?_ s
  rw [buildFrame_layout, flipBit_layout hip, decodeFrame_marked ((length_flipBit p i k).trans hp), wordOfBytes_hi_lo,
    if_pos (crc16_flipped_payload_ne hip hk _)]

end Sys2Proof.Machine
end

section
/-! Proofs about the port and the machine's invariant (spec 20_memory.md R48, R51, R52; 10_state.md R20, R29;
60_exceptions.md R181, R205). -/

namespace Sys2Proof.Machine

open Sys2Proof

/-! ### Records and instructions -/

/-- A record whose opcode names an operation with these operands decodes to the instruction they make. -/
theorem decode_eq_ok {r : Request} {o : Op} {i : Instr} (ho : opOf r.op = some o)
    (hi : withOperands o r.operands = some i) : decode r = .ok i := by
  simp only [decode, ho, hi]

theorem decode_encode (i : Instr) : decode (encode i) = .ok i := by
  cases i <;> rfl

/-- The opcode of an operation (R73). -/
def opcodeOf : Op → Byte
  | .crc16 => 0x01#8
  | .smenc => 0x10#8
  | .smdec => 0x11#8
  | .reglen => 0x20#8
  | .fenc => 0x30#8
  | .fdec => 0x31#8
  | .rxfeed => 0x40#8

theorem opcodeTable_opcodeOf : ∀ row ∈ opcodeTable, row.1 = opcodeOf row.2 := by decide

/-- The record of an instruction has its operation's opcode and the operands that made it. -/
theorem encode_of_withOperands {o : Op} {operands : Operands} {i : Instr} (h : withOperands o operands = some i) :
    encode i = { op := opcodeOf o, operands := operands } := by
  unfold withOperands at h
  split at h <;> cases h <;> rfl

/-- A record that decodes is the record of what it decodes to (R73). -/
theorem encode_of_decode {r : Request} {i : Instr} (h : decode r = .ok i) : encode i = r := by
  obtain ⟨o, ho, hi⟩ := decode_ok h
  rw [encode_of_withOperands hi, ← opcodeTable_opcodeOf _ (opOf_some ho)]

/-- Settles O41: an instruction's record has its row's opcode and operands; a record that decodes does so by a row. -/
theorem decodeInvertsEncode : Obligations.DecodeInvertsEncode := by
  unfold Obligations.DecodeInvertsEncode
  exact ⟨decode_encode, fun _ _ => encode_of_decode⟩

/-- Settles O40: each record decodes by its row, and each table word is its row's record with zero operands. -/
theorem opcodeMapDecodes : Obligations.OpcodeMapDecodes := by
  unfold Obligations.OpcodeMapDecodes
  exact ⟨decode_encode (.crc16 _), decode_encode (.smenc _), decode_encode (.smdec _), decode_encode (.reglen _),
    decode_encode (.fenc _ _ _), decode_encode (.fdec _), decode_encode (.rxfeed _), rfl⟩

/-! ### Serving the port -/

/-- Nothing arrived, nothing done (R205). -/
theorem step_idle {s : State} (h : s.port = []) : step s = .next s := by
  unfold step serveNext
  rw [h]

/-- Settles O45: the idle step. -/
theorem idleBlockHoldsItsState : Obligations.IdleBlockHoldsItsState := by
  unfold Obligations.IdleBlockHoldsItsState
  exact fun _ => step_idle

/-- A requester that may feed is admitted, and a feed notes it (R52). -/
theorem admitFeeder_eq_some {q : Nat} {i : Instr} {s : State}
    (h : feeds i = true → s.feeder = none ∨ s.feeder = some q) :
    admitFeeder q i s = some { s with feeder := if feeds i then some q else s.feeder } := by
  unfold admitFeeder
  cases hf : feeds i with
  | false => rfl
  | true =>
    obtain hq | hq := h hf
    · simp only [hq, if_true]
    · simp only [hq, if_true]
      rw [← hq]

/-- A second requester is not admitted to feed (R216). -/
theorem admitFeeder_eq_none {p q : Nat} {i : Instr} {s : State} (hf : feeds i = true) (hp : s.feeder = some p)
    (hne : p ≠ q) : admitFeeder q i s = none := by
  simp only [admitFeeder, hf, hp, hne, if_true, if_false]

/-- A decoded request from a requester that may feed is executed (R48). -/
theorem serveRequest_decoded {q : Nat} {r : Request} {i : Instr} {s : State} (hd : decode r = .ok i)
    (h : feeds i = true → s.feeder = none ∨ s.feeder = some q) :
    serveRequest q r s = exec i { s with feeder := if feeds i then some q else s.feeder } := by
  simp only [serveRequest, hd, admitFeeder_eq_some h]

/-- A feed from a second requester is refused (R216). -/
theorem serveRequest_secondFeeder {p q : Nat} {r : Request} {i : Instr} {s : State} (hd : decode r = .ok i)
    (hf : feeds i = true) (hp : s.feeder = some p) (hne : p ≠ q) :
    serveRequest q r s = .refused .secondFeeder := by
  simp only [serveRequest, hd, admitFeeder_eq_none hf hp hne]

/-- The step of a decoded request at the head of the port (R48, R51). -/
theorem step_decoded {q : Nat} {r : Request} {rest : List PortInput} {i : Instr} {s : State}
    (hport : s.port = .request q r :: rest) (hd : decode r = .ok i)
    (h : feeds i = true → s.feeder = none ∨ s.feeder = some q) :
    step s = exec i { s with port := rest, feeder := if feeds i then some q else s.feeder } := by
  rw [step_request hport]
  exact serveRequest_decoded (s := { s with port := rest }) hd h

/-- Settles O43: the request is served, and serving a decoded request from an admitted requester executes it. -/
theorem stepServesDecodedRequest : Obligations.StepServesDecodedRequest := by
  unfold Obligations.StepServesDecodedRequest
  exact fun _ _ _ _ _ => step_decoded

/-- Settles O44: the record is that of an `RXFEED`, and its requester is not the feeder. -/
theorem secondFeederIsRefused : Obligations.SecondFeederIsRefused := by
  unfold Obligations.SecondFeederIsRefused
  intro p q chunk rest s hp hne hport
  rw [step_request hport]
  exact serveRequest_secondFeeder (s := { s with port := rest }) (decode_encode (.rxfeed chunk)) rfl hp hne

/-- A well-formed instruction answers one response and leaves the port (R48, R215). -/
theorem exec_completes {i : Instr} {s : State} (h : i.wf s.cfg.feedMax = true) :
    ∃ t a, exec i s = .next t ∧ t.port = s.port ∧ t.responses = s.responses ++ [a] := by
  cases hf : feeds i with
  | false =>
    obtain ⟨a, ha, -⟩ := exec_pure hf s
    exact ⟨_, a, ha, respond_port a s, respond_responses a s⟩
  | true =>
    obtain ⟨chunk, rfl⟩ := feeds_eq_true hf
    exact ⟨_, _, exec_rxfeed (of_decide_eq_true h), rfl, rfl⟩

/-- Settles O53: reset is applied; an unassigned opcode is answered; any other record decodes to the instruction it is
the record of, whose execution completes. -/
theorem everyLegalInputCompletes : Obligations.EveryLegalInputCompletes := by
  unfold Obligations.EveryLegalInputCompletes
  refine ⟨fun rest s hport => ⟨_, step_reset hport, rfl, rfl⟩, ?_⟩
  rintro q r rest s hport (hop | ⟨i, rfl, hwf, hfeed⟩)
  · exact ⟨_, _, (step_request hport).trans (serveRequest_unassigned hop q _), rfl, rfl⟩
  · rw [step_decoded hport (decode_encode i) hfeed]
    exact exec_completes (s := { s with port := rest, feeder := if feeds i then some q else s.feeder }) hwf

/-! ### What a run of the loop leaves of the buffer -/

/-- A run leaves what it did not take from the front (R12, R20). -/
theorem parseBuffer_drops (reg : Registry) (buf : Bytes) : ∃ n, (parseBuffer reg buf).2 = buf.drop n := by
  refine parseBuffer_induction (P := fun buf _ left => ∃ n, left = buf.drop n) ?wait ?reject ?accept buf
  case wait => exact fun buf _ => ⟨0, rfl⟩
  case reject => exact fun buf _ _ _ => ⟨buf.length, List.drop_length.symm⟩
  case accept =>
    rintro buf _ total _ _ - ⟨n, rfl⟩
    exact ⟨total + n, List.drop_drop⟩

/-- Settles O50: an idle step, and a request that does not feed, leave the buffer; reset clears it; a feed leaves what
its run did not take from the front. -/
theorem onlyFeedAndResetWriteBuffer : Obligations.OnlyFeedAndResetWriteBuffer := by
  unfold Obligations.OnlyFeedAndResetWriteBuffer
  intro s s' h hne
  obtain ⟨-, rfl⟩ | ⟨rest, hport, rfl⟩ | ⟨q, r, rest, hport, hserve⟩ := step_cases h
  · exact absurd rfl hne
  · exact .inl ⟨rest, hport, rfl⟩
  · obtain ⟨-, rfl⟩ | ⟨i, a, -, -, rfl, -⟩ | ⟨chunk, hd, -, -, rfl⟩ := serveRequest_cases hserve
    · exact absurd rfl hne
    · exact absurd rfl hne
    · obtain ⟨n, hn⟩ := parseBuffer_drops s.cfg.registry (s.buf ++ chunk)
      cases encode_of_decode hd
      exact .inr ⟨q, chunk, rest, n, hport, hn⟩

/-! ### The invariant -/

theorem inv_resetWith {cfg : Config} (h : cfg.wf = true) : Inv (State.resetWith cfg) where
  cfg := h
  rest := .inl rfl
  unfed := fun _ => rfl
  answers := nofun

/-- Settles O48: after boot the buffer and the responses are empty, under the source configuration as well. -/
theorem resetStateSatisfiesInvariant : Obligations.ResetStateSatisfiesInvariant := by
  unfold Obligations.ResetStateSatisfiesInvariant
  exact ⟨fun _ => inv_resetWith, inv_resetWith (by decide)⟩

/-- One more response of an allowed shape leaves only responses of allowed shapes. -/
theorem responsesOk_append {rs : List Response} {a : Response} (h : ∀ r ∈ rs, responseOk r) (ha : responseOk a) :
    ∀ r ∈ rs ++ [a], responseOk r := by
  intro r hr
  obtain hr | hr := List.mem_append.mp hr
  · exact h r hr
  · exact List.mem_singleton.mp hr ▸ ha

/-- The invariant does not speak of the port. -/
theorem Inv.withPort {s : State} (h : Inv s) (port : List PortInput) : Inv { s with port := port } :=
  ⟨h.cfg, h.rest, h.unfed, h.answers⟩

theorem Inv.applyReset {s : State} (h : Inv s) : Inv (applyReset s) :=
  ⟨h.cfg, .inl rfl, fun _ => rfl, h.answers⟩

theorem Inv.respond {s : State} (h : Inv s) {a : Response} (ha : responseOk a) : Inv (respond a s) :=
  ⟨h.cfg, h.rest, h.unfed, responsesOk_append h.answers ha⟩

/-- A noted feeder may leave any rest state in the buffer. -/
theorem Inv.withFed {s : State} (h : Inv s) (q : Nat) {buf : Bytes} (hrest : RestInvariant s.cfg.registry buf) :
    Inv { s with feeder := some q, buf := buf } :=
  ⟨h.cfg, hrest, nofun, h.answers⟩

/-- A served request keeps the invariant: its answer is allowed, and a feed ends in a rest state (R29, R181). -/
theorem serveRequest_keeps_inv {q : Nat} {r : Request} {s s' : State} (h : Inv s)
    (hserve : serveRequest q r s = .next s') : Inv s' := by
  obtain ⟨-, rfl⟩ | ⟨i, a, -, -, rfl, ha⟩ | ⟨chunk, -, -, -, rfl⟩ := serveRequest_cases hserve
  · exact h.respond rfl
  · exact h.respond ha
  · exact (h.withFed q (parseBuffer_rest _ _)).respond (parseBuffer_outcomesOk _ _)

/-- Settles O49: an idle step changes nothing, reset leaves the empty buffer, and a served request keeps the
invariant. -/
theorem stepKeepsInvariant : Obligations.StepKeepsInvariant := by
  unfold Obligations.StepKeepsInvariant
  intro s s' h hstep
  obtain ⟨-, rfl⟩ | ⟨rest, -, rfl⟩ | ⟨q, r, rest, -, hserve⟩ := step_cases hstep
  · exact h
  · exact (h.withPort rest).applyReset
  · exact serveRequest_keeps_inv (h.withPort rest) hserve

/-! ### The outcome codes -/

/-- The error kinds in the order of their codes, from 0x01 (R181). -/
def errorKinds : List ErrorKind :=
  [.invalidStart, .undefinedCommand, .endMarkerMismatch, .crcMismatch, .tooShort, .lengthMismatch,
    .payloadLengthMismatch, .unknownCommand, .rangeError, .illegalOperation]

/-- A kind is found at the place its code counts. -/
theorem errorKinds_errorCode (k : ErrorKind) : errorKinds[(errorCode k).toNat - 1]? = some k := by
  cases k <;> rfl

theorem errorCode_injective : Function.Injective errorCode := by
  intro k k' h
  have hk := errorKinds_errorCode k
  rw [h, errorKinds_errorCode k'] at hk
  exact (Option.some.inj hk).symm

/-- Settles O54: the table and the two readings of a code are the definitions; the codes tell the kinds apart. -/
theorem outcomeCodes : Obligations.OutcomeCodes := by
  unfold Obligations.OutcomeCodes
  exact ⟨rfl, fun _ => rfl, fun _ _ => rfl, fun _ => rfl, fun _ _ => rfl, fun _ _ h => errorCode_injective h⟩

/-! ### Several sessions -/

/-- What a step of the list at one place can do: nothing where there is none, its own step where there is one. -/
theorem stepInstance_cases {k : Nat} {instances instances' : List State}
    (h : stepInstance k instances = .next instances') :
    (instances[k]? = none ∧ instances' = instances) ∨
      ∃ s s', instances[k]? = some s ∧ step s = .next s' ∧ instances' = instances.set k s' := by
  unfold stepInstance at h
  split at h
  next hk =>
    cases h
    exact .inl ⟨hk, rfl⟩
  next s hk =>
    split at h
    next s' hs =>
      cases h
      exact .inr ⟨s, s', hk, hs, rfl⟩
    · cases h
    · cases h

theorem stepInstance_next {k : Nat} {instances : List State} {s s' : State} (hk : instances[k]? = some s)
    (hs : step s = .next s') : stepInstance k instances = .next (instances.set k s') := by
  simp only [stepInstance, hk, hs]

/-- A registry shared by a list is shared after one state's replacement by another that has it. -/
theorem sharedRegistry_set {reg : Registry} {instances : List State} {s : State} (k : Nat)
    (h : sharedRegistry reg instances) (hs : s.cfg.registry = reg) : sharedRegistry reg (instances.set k s) := by
  intro t ht
  obtain ht | rfl := List.mem_or_eq_of_mem_set ht
  · exact h t ht
  · exact hs

/-- Settles O55: the list takes the step of the state at that place and puts its result there, and no step writes the
configuration. -/
theorem sessionsAreIndependent : Obligations.SessionsAreIndependent := by
  unfold Obligations.SessionsAreIndependent
  refine ⟨fun reg instances instances' k hshared h => ?_, fun _ _ _ _ hk hs => ⟨_, stepInstance_next hk hs⟩⟩
  obtain ⟨hk, rfl⟩ | ⟨s, s', hk, hs, rfl⟩ := stepInstance_cases h
  · refine ⟨hshared, rfl, fun _ _ => rfl, fun s hs => ?_⟩
    cases hk.symm.trans hs
  · have hreg : s'.cfg.registry = reg := by rw [step_keeps_cfg hs, hshared s (List.mem_of_getElem? hk)]
    refine ⟨sharedRegistry_set k hshared hreg, List.length_set,
      fun j hj => List.getElem?_set_ne hj.symm, fun t ht => ?_⟩
    cases hk.symm.trans ht
    exact ⟨s', hs, List.getElem?_set_self (List.getElem?_eq_some_iff.mp hk).1⟩

end Sys2Proof.Machine
end

section
/-! Proofs about how requests are written (spec 30_encoding.md R77): the canonical line is taken apart into its parts,
and the parts are read as the instruction. -/

namespace Sys2Proof.Machine

open Sys2Proof

/-! ### The parts of the canonical line -/

/-- The parts of a byte list after its `[`. -/
def itemToks : Bytes → List Tok
  | [] => [.rbrack]
  | [b] => [.word (writePair b), .rbrack]
  | b :: bs => .word (writePair b) :: .comma :: itemToks bs

/-- The parts of a byte list. -/
def bytesToks (bs : Bytes) : List Tok := .lbrack :: itemToks bs

/-- The parts of a byte outside a list. -/
def byteToks (b : Byte) : List Tok := [.word (writeByte b)]

/-- The parts of a signed integer. -/
def intToks (v : I32) : List Tok :=
  if v.toInt < 0 then [.dash, .word (writeNat v.toInt.natAbs)] else [.word (writeNat v.toInt.natAbs)]

/-- The parts of a payload; an empty one is written `-`. -/
def payloadToks (payload : Bytes) : List Tok := if payload.length = 0 then [.dash] else bytesToks payload

/-- The mnemonic of an instruction. -/
def mnemonic : Instr → List Char
  | .crc16 _ => ['C', 'R', 'C', '1', '6']
  | .smenc _ => ['S', 'M', 'E', 'N', 'C']
  | .smdec _ => ['S', 'M', 'D', 'E', 'C']
  | .reglen _ => ['R', 'E', 'G', 'L', 'E', 'N']
  | .fenc _ _ _ => ['F', 'E', 'N', 'C']
  | .fdec _ => ['F', 'D', 'E', 'C']
  | .rxfeed _ => ['R', 'X', 'F', 'E', 'E', 'D']

/-- The operands of an instruction as the canonical line writes them. -/
def writeOperands : Instr → List Char
  | .crc16 data => writeBytes data
  | .smenc v => writeInt v
  | .smdec b => writeByte b
  | .reglen cmd => writeByte cmd
  | .fenc senderId command payload =>
    writeByte senderId ++ ',' :: ' ' :: (writeByte command ++ ',' :: ' ' ::
      if payload.length = 0 then ['-'] else writeBytes payload)
  | .fdec span => writeBytes span
  | .rxfeed chunk => writeBytes chunk

/-- The parts of an instruction's operands. -/
def operandToks : Instr → List Tok
  | .crc16 data => bytesToks data
  | .smenc v => intToks v
  | .smdec b => byteToks b
  | .reglen cmd => byteToks cmd
  | .fenc senderId command payload =>
    .word (writeByte senderId) :: .comma :: .word (writeByte command) :: .comma :: payloadToks payload
  | .fdec span => bytesToks span
  | .rxfeed chunk => bytesToks chunk

/-- The canonical line is the mnemonic, a space and the operands. -/
theorem writeLine_eq (i : Instr) : writeLine i = mnemonic i ++ ' ' :: writeOperands i := by
  cases i with
  | fenc senderId command payload => simp [writeLine, mnemonic, writeOperands]
  | crc16 _ => rfl
  | smenc _ => rfl
  | smdec _ => rfl
  | reglen _ => rfl
  | fdec _ => rfl
  | rxfeed _ => rfl

/-! ### Taking the canonical line apart -/

/-- A space between two parts says nothing. -/
theorem lexLine_leading_space (cs : List Char) : lexLine [] (' ' :: cs) = lexLine [] cs := by
  have hid : flushWord [] = id := funext fun _ => rfl
  rw [lexLine_space, hid, Option.map_id, id]

theorem writePair_ne_nil (b : Byte) : writePair b ≠ [] := nofun

theorem writeByte_ne_nil (b : Byte) : writeByte b ≠ [] := nofun

/-- A word, a comma and a space before other parts. -/
theorem lexLine_word_comma {w : List Char} (hne : w ≠ []) (hw : ∀ c ∈ w, isWordChar c = true) {cs : List Char}
    {toks : List Tok} (h : lexLine [] cs = some toks) :
    lexLine [] (w ++ ',' :: ' ' :: cs) = some (.word w :: .comma :: toks) :=
  lexLine_word_punctuation hne hw _ _ (by decide) (by decide) (by decide) rfl ((lexLine_leading_space cs).trans h)

theorem lexLine_rbrack : lexLine [] [']'] = some [.rbrack] := by
  rw [lexLine_punctuation (t := .rbrack) _ _ (by decide) (by decide) (by decide) rfl, lexLine_nil]
  rfl

theorem lexLine_writeItems (bs : Bytes) : lexLine [] (writeItems bs) = some (itemToks bs) := by
  induction bs with
  | nil => exact lexLine_rbrack
  | cons b bs ih =>
    cases bs with
    | nil =>
      exact lexLine_word_punctuation (writePair_ne_nil b) (writePair_word b) _ _ (by decide) (by decide) (by decide)
        rfl (lexLine_nil [])
    | cons b' bs => exact lexLine_word_comma (writePair_ne_nil b) (writePair_word b) ih

theorem lexLine_writeBytes (bs : Bytes) : lexLine [] (writeBytes bs) = some (bytesToks bs) := by
  rw [writeBytes, lexLine_punctuation (t := .lbrack) _ _ (by decide) (by decide) (by decide) rfl,
    lexLine_writeItems]
  rfl

theorem lexLine_writeByte (b : Byte) : lexLine [] (writeByte b) = some (byteToks b) :=
  lexLine_word_end (writeByte_ne_nil b) (writeByte_word b)

/-- The digits of a number are one word. -/
theorem writeNat_word (n : Nat) : ∀ c ∈ writeNat n, isWordChar c = true := writeDigits_word _ n

theorem lexLine_writeNat (n : Nat) : lexLine [] (writeNat n) = some [.word (writeNat n)] :=
  lexLine_word_end (writeNat_ne_nil n) (writeNat_word n)

/-- A word does not begin with `-`, so that a sign before it begins no comment (R77). -/
theorem ne_dash_cons {w : List Char} (hw : ∀ c ∈ w, isWordChar c = true) (cs : List Char) : w ≠ '-' :: cs := by
  rintro rfl
  exact wordChar_ne_dash (hw '-' List.mem_cons_self) rfl

theorem lexLine_writeInt (v : I32) : lexLine [] (writeInt v) = some (intToks v) := by
  unfold writeInt intToks
  split
  next hneg =>
    rw [lexLine_dash _ _ (ne_dash_cons (writeNat_word _)), lexLine_writeNat]
    rfl
  next hpos => exact lexLine_writeNat _

theorem lexLine_writePayload (payload : Bytes) :
    lexLine [] (if payload.length = 0 then ['-'] else writeBytes payload) = some (payloadToks payload) := by
  unfold payloadToks
  split
  · rw [lexLine_dash [] [] (fun _ => nofun), lexLine_nil]
    rfl
  · exact lexLine_writeBytes payload

theorem lexLine_writeOperands (i : Instr) : lexLine [] (writeOperands i) = some (operandToks i) := by
  cases i with
  | crc16 data => exact lexLine_writeBytes data
  | smenc v => exact lexLine_writeInt v
  | smdec b => exact lexLine_writeByte b
  | reglen cmd => exact lexLine_writeByte cmd
  | fenc senderId command payload =>
    exact lexLine_word_comma (writeByte_ne_nil senderId) (writeByte_word senderId)
      (lexLine_word_comma (writeByte_ne_nil command) (writeByte_word command) (lexLine_writePayload payload))
  | fdec span => exact lexLine_writeBytes span
  | rxfeed chunk => exact lexLine_writeBytes chunk

theorem mnemonic_ne_nil (i : Instr) : mnemonic i ≠ [] := by
  cases i <;> exact nofun

theorem mnemonic_word (i : Instr) : ∀ c ∈ mnemonic i, isWordChar c = true :=
  List.all_eq_true.mp (by cases i <;> rfl)

theorem lexLine_writeLine (i : Instr) : lexLine [] (writeLine i) = some (.word (mnemonic i) :: operandToks i) := by
  rw [writeLine_eq]
  exact lexLine_word_space (mnemonic_ne_nil i) (mnemonic_word i) _ _ (lexLine_writeOperands i)

/-! ### Reading the parts -/

theorem parseItems_itemToks (b : Byte) (bs : Bytes) : parseItems (itemToks (b :: bs)) = some (b :: bs) := by
  induction bs generalizing b with
  | nil => simp only [itemToks, parseItems, listByte_writePair, Option.map_some]
  | cons b' bs ih => simp only [itemToks, parseItems, listByte_writePair, ih]

theorem parseBytes_bytesToks (bs : Bytes) : parseBytes (bytesToks bs) = some bs := by
  match bs with
  | [] => rfl
  | [b] => exact parseItems_itemToks b []
  | b :: b' :: bs => exact parseItems_itemToks b (b' :: bs)

theorem parseByte_byteToks (b : Byte) : parseByte (byteToks b) = some b := hexByte_writeByte b

/-- A natural number below `2 ^ 31` in decimal is read as itself (R74). -/
theorem parseInt_writeNat {n : Nat} (h : n < 2 ^ 31) : parseInt [.word (writeNat n)] = some (BitVec.ofNat 32 n) := by
  have hd := parseDigits_writeNat n (by omega)
  cases hw : writeNat n with
  | nil => exact absurd hw (writeNat_ne_nil n)
  | cons c cs =>
    rw [hw] at hd
    simp only [parseInt, hd, h, if_true]

/-- A sign before a number up to `2 ^ 31` is read as its negation (R74). -/
theorem parseInt_dash_writeNat {n : Nat} (h : n ≤ 2 ^ 31) :
    parseInt [.dash, .word (writeNat n)] = some (-(BitVec.ofNat 32 n)) := by
  have hd := parseDigits_writeNat n (by omega)
  cases hw : writeNat n with
  | nil => exact absurd hw (writeNat_ne_nil n)
  | cons c cs =>
    rw [hw] at hd
    simp only [parseInt, hd, h, if_true]

/-- The whole 32-bit range reads back, the most negative value included (R74). -/
theorem parseInt_intToks (v : I32) : parseInt (intToks v) = some v := by
  have hmin := BitVec.le_toInt v
  have hmax := BitVec.toInt_lt (x := v)
  unfold intToks
  split
  next hneg =>
    rw [parseInt_dash_writeNat (by omega), ← BitVec.ofInt_natCast, ← BitVec.ofInt_neg,
      show -(v.toInt.natAbs : Int) = v.toInt by omega, BitVec.ofInt_toInt]
  next hpos =>
    rw [parseInt_writeNat (by omega), ← BitVec.ofInt_natCast, show (v.toInt.natAbs : Int) = v.toInt by omega,
      BitVec.ofInt_toInt]

theorem parseFenc_operandToks (senderId command : Byte) (payload : Bytes) :
    parseFenc (operandToks (.fenc senderId command payload)) = some (.fenc senderId command payload) := by
  change parseFenc (.word (writeByte senderId) :: .comma :: .word (writeByte command) :: .comma ::
    payloadToks payload) = _
  unfold payloadToks
  split
  next h =>
    cases List.eq_nil_of_length_eq_zero h
    simp only [parseFenc, hexByte_writeByte]
  next h =>
    have hb := parseBytes_bytesToks payload
    simp only [bytesToks] at hb ⊢
    simp only [parseFenc, hexByte_writeByte, hb]

/-- The parts of the canonical line are read as its instruction: the mnemonic selects the reader of its operands. -/
theorem parseRequest_writeLine (i : Instr) : parseRequest (.word (mnemonic i) :: operandToks i) = some i := by
  cases i with
  | crc16 data => exact congrArg (Option.map _) (parseBytes_bytesToks data)
  | smenc v => exact congrArg (Option.map _) (parseInt_intToks v)
  | smdec b => exact congrArg (Option.map _) (parseByte_byteToks b)
  | reglen cmd => exact congrArg (Option.map _) (parseByte_byteToks cmd)
  | fenc senderId command payload => exact parseFenc_operandToks senderId command payload
  | fdec span => exact congrArg (Option.map _) (parseBytes_bytesToks span)
  | rxfeed chunk => exact congrArg (Option.map _) (parseBytes_bytesToks chunk)

/-! ### The label -/

/-- No operand begins with `:`, so that the mnemonic is not read as a label. -/
theorem operandToks_ne_colon (i : Instr) (toks : List Tok) : operandToks i ≠ .colon :: toks := by
  cases i with
  | smenc v =>
    change intToks v ≠ _
    unfold intToks
    split <;> exact nofun
  | crc16 _ => exact nofun
  | smdec _ => exact nofun
  | reglen _ => exact nofun
  | fenc _ _ _ => exact nofun
  | fdec _ => exact nofun
  | rxfeed _ => exact nofun

theorem parseLine_of_no_colon {line : List Char} {w : List Char} {toks : List Tok}
    (h : lexLine [] line = some (.word w :: toks)) (hc : ∀ rest, toks ≠ .colon :: rest) :
    parseLine line = parseRequest (.word w :: toks) := by
  unfold parseLine
  rw [h]
  split
  next rest heq =>
    cases heq
    exact absurd rfl (hc rest)
  next heq =>
    cases heq
    rfl
  next heq => cases heq

theorem parseLine_of_colon {line : List Char} {w : List Char} {toks : List Tok}
    (h : lexLine [] line = some (.word w :: .colon :: toks)) : parseLine line = parseRequest toks := by
  unfold parseLine
  rw [h]

/-- A label, its colon and a space come apart before the parts of the line. -/
theorem lexLine_label {label : List Char} (hne : label ≠ []) (hl : ∀ c ∈ label, isWordChar c = true)
    {line : List Char} {toks : List Tok} (h : lexLine [] line = some toks) :
    lexLine [] (label ++ ':' :: ' ' :: line) = some (.word label :: .colon :: toks) :=
  lexLine_word_punctuation hne hl _ _ (by decide) (by decide) (by decide) rfl ((lexLine_leading_space line).trans h)

/-- Settles O56: the reader takes the canonical line apart into the mnemonic and the operands, behind a label as well,
and each mnemonic's operands read back. -/
theorem requestSyntaxRoundTrip : Obligations.RequestSyntaxRoundTrip := by
  unfold Obligations.RequestSyntaxRoundTrip
  intro i
  have hline := lexLine_writeLine i
  have hread := parseRequest_writeLine i
  exact ⟨(parseLine_of_no_colon hline (operandToks_ne_colon i)).trans hread,
    fun label hne hl => (parseLine_of_colon (lexLine_label hne hl hline)).trans hread⟩

end Sys2Proof.Machine
end

section
/-! Proofs about the sign-magnitude byte read both ways (spec 41_sign_magnitude.md section 3, 30_encoding.md
section 2). -/

namespace Sys2Proof.Machine

open Sys2Proof

/-- The encoder takes the value of a byte back to the byte, and the negative zero to zero (R101, R102). -/
theorem signMagnitudeEncode_decode (b : Byte) :
    signMagnitudeEncode (signMagnitudeDecode b).toInt = some (if b = 0x80#8 then 0x00#8 else b) := by
  have hb := b.isLt
  obtain hlt | rfl | hgt : b.toNat < 128 ∨ b = 0x80#8 ∨ 128 < b.toNat := by
    rw [← BitVec.toNat_inj, BitVec.toNat_ofNat]
    omega
  · have hv := toInt_signMagnitudeDecode_of_lt hlt
    obtain ⟨b', hb', he⟩ := signMagnitudeEncode_of_nonneg (x := b.toNat) (by omega) (by omega)
    have hne : b ≠ 0x80#8 := by rintro rfl; exact absurd hlt (by decide)
    rw [hv, he, if_neg hne, BitVec.toNat_inj.mp (Int.ofNat.inj hb')]
  · decide
  · have hv := toInt_signMagnitudeDecode_of_ge hgt.le
    obtain ⟨b', hb', he⟩ := signMagnitudeEncode_of_neg (x := -((b.toNat - 128 : Nat) : Int)) (by omega) (by omega)
    have hne : b ≠ 0x80#8 := by rintro rfl; exact absurd hgt (by decide)
    rw [hv, he, if_neg hne, BitVec.toNat_inj.mp (show b'.toNat = b.toNat by omega)]

/-- Settles O11: the encoder undoes the decoder but for the negative zero, which therefore shares its value with zero
and with no other byte. -/
theorem signMagnitudeRoundTripFromByte : Obligations.SignMagnitudeRoundTripFromByte := by
  unfold Obligations.SignMagnitudeRoundTripFromByte
  refine ⟨fun b s => ⟨_, exec_smdec b s, exec_smenc_some (signMagnitudeEncode_decode b) s⟩, fun b b' h => ?_⟩
  have hbytes := signMagnitudeEncode_decode b
  rw [h, signMagnitudeEncode_decode b'] at hbytes
  have hbytes := Option.some.inj hbytes
  split at hbytes
  next hb' =>
    split at hbytes
    next hb => exact .inl (hb.trans hb'.symm)
    next hb => exact .inr (.inl ⟨hbytes.symm, hb'⟩)
  next hb' =>
    split at hbytes
    next hb => exact .inr (.inr ⟨hb, hbytes⟩)
    next hb => exact .inl hbytes.symm

/-- Settles O12: from 0x80 on the two values are `128 - b` and `b - 256`, equal at 0xC0 alone. -/
theorem signMagnitudeVersusTwosComplement : Obligations.SignMagnitudeVersusTwosComplement := by
  unfold Obligations.SignMagnitudeVersusTwosComplement
  intro b
  have hb := b.isLt
  rw [toInt_signMagnitudeDecode, BitVec.toInt_eq_toNat_cond, ← BitVec.toNat_inj, BitVec.toNat_ofNat]
  split <;> split <;> omega

end Sys2Proof.Machine
end

section
/-! Proofs about the registry as data and about who reads it (spec 42_registry.md). -/

namespace Sys2Proof.Machine

open Sys2Proof

/-! ### The canonical table of a function -/

theorem registry_wf_cons {c n : Byte} {rest : Registry} (hrest : rest.wf = true)
    (hlt : ∀ row ∈ rest, c.toNat < row.1.toNat) : Registry.wf ((c, n) :: rest) = true := by
  cases rest with
  | nil => rfl
  | cons row rest => exact Bool.and_eq_true_iff.mpr ⟨decide_eq_true (hlt row List.mem_cons_self), hrest⟩

/-- The table over the commands from `k` on names none below `k`. -/
theorem tableFrom_ge (f : Byte → Option Byte) {n k : Nat} (h : n + k ≤ 256) :
    ∀ row ∈ tableFrom f n k, k ≤ row.1.toNat := by
  induction n generalizing k with
  | zero => exact nofun
  | succ n ih =>
    have hrest := ih (k := k + 1) (by omega)
    intro row hrow
    rw [tableFrom] at hrow
    split at hrow
    · exact Nat.le_of_succ_le (hrest row hrow)
    · obtain rfl | hrow := List.mem_cons.mp hrow
      · rw [BitVec.toNat_ofNat, Nat.mod_eq_of_lt (by omega)]
      · exact Nat.le_of_succ_le (hrest row hrow)

theorem tableFrom_wf (f : Byte → Option Byte) {n k : Nat} (h : n + k ≤ 256) : (tableFrom f n k).wf = true := by
  induction n generalizing k with
  | zero => rfl
  | succ n ih =>
    have hrest := ih (k := k + 1) (by omega)
    rw [tableFrom]
    split
    · exact hrest
    · refine registry_wf_cons hrest fun row hrow => ?_
      have hge := tableFrom_ge f (k := k + 1) (by omega) row hrow
      rw [BitVec.toNat_ofNat, Nat.mod_eq_of_lt (by omega)]
      exact hge

theorem registryLookup_eq_none {reg : Registry} {c : Byte} (h : ∀ row ∈ reg, c ≠ row.1) :
    registryLookup reg c = none := by
  induction reg with
  | nil => rfl
  | cons row rest ih =>
    rw [registryLookup, if_neg (h row List.mem_cons_self), ih fun r hr => h r (List.mem_cons_of_mem row hr)]

/-- The table reads as the function on its commands. -/
theorem registryLookup_tableFrom (f : Byte → Option Byte) {n k : Nat} {c : Byte} (h : n + k ≤ 256)
    (hk : k ≤ c.toNat) (hn : c.toNat < n + k) : registryLookup (tableFrom f n k) c = f c := by
  induction n generalizing k with
  | zero => omega
  | succ n ih =>
    by_cases hck : c = BitVec.ofNat 8 k
    · subst hck
      rw [tableFrom]
      split
      next hnone =>
        rw [hnone]
        refine registryLookup_eq_none fun row hrow heq => ?_
        have hge := tableFrom_ge f (k := k + 1) (by omega) row hrow
        rw [← heq, BitVec.toNat_ofNat] at hge
        omega
      next len hsome => rw [registryLookup, if_pos rfl, hsome]
    · have hlt : k < c.toNat := by
        refine Nat.lt_of_le_of_ne hk fun he => hck ?_
        rw [he, BitVec.ofNat_toNat, BitVec.setWidth_eq]
      have hrest := ih (k := k + 1) (by omega) hlt (by omega)
      rw [tableFrom]
      split
      · exact hrest
      · rw [registryLookup, if_neg hck, hrest]

/-! ### One canonical table for a function -/

theorem registryLookup_head (c n : Byte) (rest : Registry) : registryLookup ((c, n) :: rest) c = some n := if_pos rfl

theorem registryLookup_tail {c d : Byte} (h : d ≠ c) (n : Byte) (rest : Registry) :
    registryLookup ((c, n) :: rest) d = registryLookup rest d := if_neg h

/-- Below its first command a canonical table has nothing. -/
theorem registryLookup_below_head {c n d : Byte} {rest : Registry} (h : Registry.wf ((c, n) :: rest) = true)
    (hd : d.toNat < c.toNat) : registryLookup ((c, n) :: rest) d = none := by
  have hne : d ≠ c := by rintro rfl; exact Nat.lt_irrefl _ hd
  rw [registryLookup_tail hne, registryLookup_below h hd.le]

/-- Canonical tables that read alike begin with the same command: the other has nothing below its first. -/
theorem head_le_of_lookup_eq {c n c' n' : Byte} {rest rest' : Registry}
    (h' : Registry.wf ((c', n') :: rest') = true)
    (hread : registryLookup ((c, n) :: rest) c = registryLookup ((c', n') :: rest') c) : c'.toNat ≤ c.toNat := by
  refine Nat.le_of_not_lt fun hlt => ?_
  rw [registryLookup_head, registryLookup_below_head h' hlt] at hread
  cases hread

theorem registry_ext {reg reg' : Registry} (h : reg.wf = true) (h' : reg'.wf = true)
    (hread : ∀ c, registryLookup reg c = registryLookup reg' c) : reg = reg' := by
  induction reg generalizing reg' with
  | nil =>
    cases reg' with
    | nil => rfl
    | cons row' rest' => cases (hread row'.1).trans (registryLookup_head row'.1 row'.2 rest')
  | cons row rest ih =>
    obtain ⟨c, n⟩ := row
    cases reg' with
    | nil => cases (hread c).symm.trans (registryLookup_head c n rest)
    | cons row' rest' =>
      obtain ⟨c', n'⟩ := row'
      have hle := head_le_of_lookup_eq h' (hread c)
      have hge := head_le_of_lookup_eq h (hread c').symm
      obtain rfl : c = c' := BitVec.toNat_inj.mp (Nat.le_antisymm hge hle)
      have hn := hread c
      rw [registryLookup_head, registryLookup_head] at hn
      cases hn
      refine congrArg _ (ih (registry_wf_tail h) (registry_wf_tail h') fun d => ?_)
      by_cases hd : d = c
      · subst hd
        rw [registryLookup_below h (Nat.le_refl _), registryLookup_below h' (Nat.le_refl _)]
      · have hrest := hread d
        rwa [registryLookup_tail hd, registryLookup_tail hd] at hrest

/-- Settles O13: the table over all 256 commands reads as its function, and canonical tables are extensional. -/
theorem registryIsAnyTotalFunction : Obligations.RegistryIsAnyTotalFunction := by
  unfold Obligations.RegistryIsAnyTotalFunction
  exact ⟨fun f => ⟨tableFrom f 256 0, tableFrom_wf f (by decide),
    fun c => registryLookup_tableFrom f (by decide) (Nat.zero_le _) c.isLt⟩, fun _ _ => registry_ext⟩

/-- Settles O16: the heartbeat is the first entry of the source's registry. -/
theorem sourceRegistryHasHeartbeat : Obligations.SourceRegistryHasHeartbeat := by
  unfold Obligations.SourceRegistryHasHeartbeat
  exact registryLookup_head 0x0F#8 0x00#8 []

/-! ### Who reads the registry -/

/-- Four of the seven instructions answer one response at every state, whatever its configuration. -/
theorem exec_response_of_no_registry {i : Instr}
    (h : (∃ data, i = .crc16 data) ∨ (∃ v, i = .smenc v) ∨ (∃ b, i = .smdec b) ∨ (∃ span, i = .fdec span)) :
    ∃ r, ∀ s : State, exec i s = .next (respond r s) := by
  obtain ⟨data, rfl⟩ | ⟨v, rfl⟩ | ⟨b, rfl⟩ | ⟨span, rfl⟩ := h
  · exact ⟨_, exec_crc16 data⟩
  · cases he : signMagnitudeEncode v.toInt with
    | none => exact ⟨_, exec_smenc_none he⟩
    | some b => exact ⟨_, exec_smenc_some he⟩
  · exact ⟨_, exec_smdec b⟩
  · cases hd : decodeFrame span with
    | error k => exact ⟨_, exec_fdec_error hd⟩
    | ok f => exact ⟨_, exec_fdec_ok hd⟩

/-- The state under another registry. -/
def withRegistry (s : State) (reg : Registry) : State := { s with cfg := { s.cfg with registry := reg } }

/-- `i` at `s` answers `unregistered` under exactly the registries that do not have `command`. -/
def TellsUnregistered (i : Instr) (s : State) (command : Byte) (unregistered : Response) : Prop :=
  ∀ reg, ∃ t r, exec i (withRegistry s reg) = .next t ∧ t.responses = s.responses ++ [r] ∧
    (r = unregistered ↔ registryLookup reg command = none)

/-- A registry that has `command` exactly when `reg` does not. -/
def otherRegistry (reg : Registry) (command : Byte) : Registry :=
  if registryLookup reg command = none then [(command, 0x00#8)] else []

theorem registryLookup_otherRegistry (reg : Registry) (command : Byte) :
    registryLookup (otherRegistry reg command) command = none ↔ ¬ registryLookup reg command = none := by
  unfold otherRegistry
  split
  next h => exact iff_of_false (by rw [registryLookup_head]; exact nofun) (not_not.mpr h)
  next h => exact iff_of_true rfl h

/-- What tells registered from unregistered answers otherwise under the other registry. -/
theorem TellsUnregistered.reads_registry {i : Instr} {s : State} {command : Byte} {unregistered : Response}
    (h : TellsUnregistered i s command unregistered) :
    ∃ (reg : Registry) (t u : State) (r r' : Response),
      exec i s = .next t ∧ t.responses = s.responses ++ [r] ∧
      exec i (withRegistry s reg) = .next u ∧ u.responses = s.responses ++ [r'] ∧ r ≠ r' := by
  obtain ⟨t, r, ht, htr, hr⟩ := h s.cfg.registry
  obtain ⟨u, r', hu, hur, hr'⟩ := h (otherRegistry s.cfg.registry command)
  refine ⟨_, t, u, r, r', ht, htr, hu, hur, ?_⟩
  rintro rfl
  exact iff_not_self (hr.symm.trans (hr'.trans (registryLookup_otherRegistry _ _)))

theorem reglen_tellsUnregistered (cmd : Byte) (s : State) :
    TellsUnregistered (.reglen cmd) s cmd (.ok (.len none)) := by
  intro reg
  exact ⟨_, _, exec_reglen cmd _, rfl, by rw [Response.ok.injEq, Result.len.injEq]; rfl⟩

theorem fenc_tellsUnregistered (sender command : Byte) (payload : Bytes) (s : State) :
    TellsUnregistered (.fenc sender command payload) s command (.error .unknownCommand []) := by
  intro reg
  cases hreg : registryLookup reg command with
  | none => exact ⟨_, _, exec_fenc_error (encodeFrame_unregistered hreg sender payload), rfl, iff_of_true rfl rfl⟩
  | some n =>
    cases hp : payloadFor n payload with
    | none => exact ⟨_, _, exec_fenc_error (encodeFrame_badPayload hreg hp sender), rfl, iff_of_false nofun nofun⟩
    | some p => exact ⟨_, _, exec_fenc_ok (encodeFrame_built hreg hp sender), rfl, iff_of_false nofun nofun⟩

/-- A header to an empty buffer is rejected when its command is unregistered, and waited on when it is not (R155,
R156). -/
theorem rxfeed_tellsUnregistered (sender c len : Byte) {s : State} (hbuf : s.buf = []) (hmax : 4 ≤ s.cfg.feedMax) :
    TellsUnregistered (.rxfeed [START, sender, c, len]) s c
      (.ok (.outcomes [.error .undefinedCommand [START, sender, c, len]])) := by
  intro reg
  have hhead : (withRegistry s reg).buf ++ [START, sender, c, len] = [START, sender, c, len] := by
    rw [show (withRegistry s reg).buf = [] from hbuf, List.nil_append]
  cases hreg : registryLookup reg c with
  | none =>
    refine ⟨_, _, exec_rxfeed_reject hmax ?_, rfl, iff_of_true rfl rfl⟩
    rw [hhead]
    exact scanFront_unregistered hreg sender len []
  | some n =>
    refine ⟨_, _, exec_rxfeed_wait hmax ?_, rfl, iff_of_false nofun nofun⟩
    rw [hhead]
    have hshort : 4 < 7 + len.toNat := by omega
    exact .inr (.inr ⟨rfl, Nat.le_refl 4, Option.ne_none_iff_exists'.mpr ⟨n, hreg⟩, hshort⟩)

/-- Settles O17: four instructions have one response for every configuration; the other three tell a registered command
from an unregistered one, so a registry that differs there shows. -/
theorem registryIsReadByThreeOperations : Obligations.RegistryIsReadByThreeOperations := by
  unfold Obligations.RegistryIsReadByThreeOperations
  refine ⟨fun i s cfg h => ?_, fun i s h => ?_⟩
  · obtain ⟨r, hr⟩ := exec_response_of_no_registry h
    exact ⟨r, hr s, hr { s with cfg := cfg }⟩
  · obtain ⟨cmd, rfl⟩ | ⟨sender, command, payload, rfl⟩ | ⟨hbuf, hmax, sender, c, len, rfl⟩ := h
    · exact (reglen_tellsUnregistered cmd s).reads_registry
    · exact (fenc_tellsUnregistered sender command payload s).reads_registry
    · exact (rxfeed_tellsUnregistered sender c len hbuf hmax).reads_registry

end Sys2Proof.Machine
end

section
/-! Proofs about the Stream Reassembler's guarantees (spec 44_reassembler.md sections 1 to 4; 10_state.md R28, R29;
95_test_vectors.md section 1). -/

namespace Sys2Proof.Machine

open Sys2Proof Sys2Proof.Spec

/-! ### The request -/

/-- What a feed that answers has handed out is what its run of the loop emitted. -/
theorem outcomes_of_exec_rxfeed {chunk : Bytes} {s t : State} {out : List RxOutcome}
    (h : exec (.rxfeed chunk) s = .next t) (hr : t.responses = s.responses ++ [.ok (.outcomes out)]) :
    out = (parseBuffer s.cfg.registry (s.buf ++ chunk)).1 := by
  obtain ⟨-, rfl⟩ := exec_rxfeed_next h
  rw [respond_responses, List.append_cancel_left_eq] at hr
  cases hr
  rfl

/-- Settles O52: the next state is the run's, which differs in the buffer and the response alone. -/
theorem rxfeedChangesOnlyBufferAndResponses : Obligations.RxfeedChangesOnlyBufferAndResponses := by
  unfold Obligations.RxfeedChangesOnlyBufferAndResponses
  intro chunk s t h
  obtain ⟨-, rfl⟩ := exec_rxfeed_next h
  exact ⟨rfl, rfl, rfl, _, rfl⟩

/-! ### The rest states -/

/-- A pass and the parse state make the same checks in the same order, up to a whole candidate (R28, R150). -/
theorem scanFront_wait_iff_parseState (reg : Registry) (buf : Bytes) :
    scanFront reg buf = .wait ↔
      parseState reg buf = .seeking ∨ parseState reg buf = .headerPartial ∨ parseState reg buf = .bodyPartial := by
  unfold scanFront parseState
  by_cases hempty : buf.length = 0
  · rw [if_pos hempty, if_pos hempty]
    exact iff_of_true rfl (.inl rfl)
  rw [if_neg hempty, if_neg hempty]
  by_cases hstart : byteAt buf 0 ≠ START
  · rw [if_pos hstart, if_pos hstart]
    exact iff_of_false nofun (by decide)
  rw [if_neg hstart, if_neg hstart]
  by_cases hheader : buf.length < HDR_LEN
  · rw [if_pos hheader, if_pos hheader]
    exact iff_of_true rfl (.inr (.inl rfl))
  rw [if_neg hheader, if_neg hheader]
  by_cases hcommand : registryLookup reg (byteAt buf 2) = none
  · rw [if_pos hcommand, if_pos hcommand]
    exact iff_of_false nofun (by decide)
  rw [if_neg hcommand, if_neg hcommand]
  by_cases hbody : buf.length < totalLen buf
  · rw [if_pos hbody, if_pos hbody]
    exact iff_of_true rfl (.inr (.inr rfl))
  rw [if_neg hbody, if_neg hbody]
  refine iff_of_false ?_ (by decide)
  split
  · exact nofun
  · split <;> exact nofun

/-- Settles O39: a pass waits exactly on the rest states, and exactly in the three waiting parse states. -/
theorem restStatesAreWaitingParseStates : Obligations.RestStatesAreWaitingParseStates := by
  unfold Obligations.RestStatesAreWaitingParseStates
  exact fun reg buf => (scanFront_wait_iff reg buf).symm.trans (scanFront_wait_iff_parseState reg buf)

/-- A rest state holds less than a header or than a frame of the longest kind, 262 bytes (R29). -/
theorem RestInvariant.length_le {reg : Registry} {buf : Bytes} (h : RestInvariant reg buf) : buf.length ≤ 261 := by
  have hlen := (byteAt buf 3).isLt
  obtain h | ⟨-, h⟩ | ⟨-, -, -, h⟩ := h <;> omega

/-- Settles O29: a run ends in a rest state. -/
theorem rxfeedLeavesRestState : Obligations.RxfeedLeavesRestState := by
  unfold Obligations.RxfeedLeavesRestState
  intro chunk s t h
  obtain ⟨-, rfl⟩ := exec_rxfeed_next h
  have hrest := parseBuffer_rest s.cfg.registry (s.buf ++ chunk)
  exact ⟨hrest, RestInvariant.length_le hrest⟩

/-- Settles O30: a feed that answers has a legal chunk, and a rest state holds at most 261 bytes. -/
theorem bufferFitsTheStatedRoom : Obligations.BufferFitsTheStatedRoom := by
  unfold Obligations.BufferFitsTheStatedRoom
  intro chunk s t hrest h
  obtain ⟨hchunk, -⟩ := exec_rxfeed_next h
  rw [List.length_append]
  exact Nat.add_le_add (RestInvariant.length_le hrest) hchunk

/-- Settles O31: a run waits on a rest state. -/
theorem rxfeedWaitsWithoutOutcome : Obligations.RxfeedWaitsWithoutOutcome := by
  unfold Obligations.RxfeedWaitsWithoutOutcome
  exact fun _ _ => exec_rxfeed_wait

/-! ### The outcomes -/

/-- Each pass of a run emits one outcome and all but the last take at least 7 bytes (R160). -/
theorem parseBuffer_outcome_count (reg : Registry) (buf : Bytes) :
    (parseBuffer reg buf).1.length ≤ buf.length / 7 + 1 := by
  refine parseBuffer_induction (P := fun buf out _ => out.length ≤ buf.length / 7 + 1) ?wait ?reject ?accept buf
  case wait => exact fun _ _ => Nat.zero_le _
  case reject => exact fun _ _ _ _ => Nat.le_add_left 1 _
  case accept =>
    intro buf f total out _ h ih
    have htotal := scanFront_accept_total h
    rw [List.length_drop] at ih
    rw [List.length_cons]
    omega

/-- Settles O26: the outcomes are a run's on the buffer followed by the chunk. -/
theorem rxfeedOutcomeCountIsBounded : Obligations.RxfeedOutcomeCountIsBounded := by
  unfold Obligations.RxfeedOutcomeCountIsBounded
  intro chunk s t out h hr
  rw [outcomes_of_exec_rxfeed h hr, ← List.length_append]
  exact parseBuffer_outcome_count _ _

/-- An error among well-shaped outcomes is one that `RXFEED` may emit (R161). -/
theorem rxErrorOk_of_mem {out : List RxOutcome} (h : outcomesOk out) {k : ErrorKind} {d : Bytes}
    (hmem : .error k d ∈ out) : rxErrorOk k d := by
  induction out with
  | nil => cases hmem
  | cons o rest ih =>
    cases o with
    | frame f =>
      obtain ⟨-, hrest⟩ := h
      exact ih hrest ((List.mem_cons.mp hmem).resolve_left nofun)
    | error k' d' =>
      obtain ⟨herr, rfl⟩ := h
      cases List.mem_singleton.mp hmem
      exact herr

/-- The kinds that `RXFEED` may emit are the first four of the error table (R181). -/
theorem rxErrorOk_kind {k : ErrorKind} {d : Bytes} (h : rxErrorOk k d) :
    (k = .invalidStart ∨ k = .undefinedCommand ∨ k = .endMarkerMismatch ∨ k = .crcMismatch) ∧
      1 ≤ (errorCode k).toNat ∧ (errorCode k).toNat ≤ 4 := by
  obtain ⟨rfl, -⟩ | ⟨rfl, -⟩ | ⟨rfl, -⟩ | ⟨rfl, -⟩ := h <;> decide

/-- Settles O28: a run's errors are of the four kinds that the error table lists for `RXFEED`. -/
theorem rxfeedEmitsOnlyStreamErrors : Obligations.RxfeedEmitsOnlyStreamErrors := by
  unfold Obligations.RxfeedEmitsOnlyStreamErrors
  intro chunk s t out k d h hr hmem
  have hout : outcomesOk out := outcomes_of_exec_rxfeed h hr ▸ parseBuffer_outcomesOk _ _
  exact rxErrorOk_kind (rxErrorOk_of_mem hout hmem)

/-! ### Whole frames -/

/-- A receivable frame fed whole to an empty buffer is received, and the buffer stays empty (R159). -/
theorem exec_rxfeed_frameBytes {f : Frame} {s : State} (hf : ReceivableFrame s.cfg.registry f)
    (hl : (frameBytes f).length ≤ s.cfg.feedMax) (hbuf : s.buf = []) :
    exec (.rxfeed (frameBytes f)) s = .next (respond (.ok (.outcomes [.frame f])) s) := by
  obtain ⟨-, hframe⟩ := lenIsNotComparedWithRegistry
  exact hframe f s hf hl hbuf

/-- A run that emitted an error left nothing (R161). -/
theorem parseBuffer_left_of_error {reg : Registry} {buf : Bytes} {k : ErrorKind} {d : Bytes}
    (h : .error k d ∈ (parseBuffer reg buf).1) : (parseBuffer reg buf).2 = [] := by
  obtain ⟨fs, hout | ⟨_, _, -, hleft⟩⟩ := parseBuffer_frames_then_error reg buf
  · rw [hout] at h
    obtain ⟨_, -, hne⟩ := List.mem_map.mp h
    cases hne
  · exact hleft

/-- Settles O36: the error left an empty buffer, and the configuration stands. -/
theorem recoveryAfterErrorIsClean : Obligations.RecoveryAfterErrorIsClean := by
  unfold Obligations.RecoveryAfterErrorIsClean
  intro chunk s t out k d f h hr hmem hf hl
  rw [outcomes_of_exec_rxfeed h hr] at hmem
  obtain ⟨-, rfl⟩ := exec_rxfeed_next h
  exact exec_rxfeed_frameBytes hf hl (parseBuffer_left_of_error hmem)

/-- Settles O37: the flipped bit stays inside the payload, so the span is a whole candidate with both markers, and the
transmitted CRC is the one of the payload before. -/
theorem rxfeedReportsFlippedPayloadBit : Obligations.RxfeedReportsFlippedPayloadBit := by
  unfold Obligations.RxfeedReportsFlippedPayloadBit
  rintro f s i k ⟨hp, hr, hc⟩ hl hbuf hi hk
  have hip : i < f.payload.length := hp ▸ hi
  have hflipped : (flipBit (frameBytes f) (4 + i) k).length ≤ s.cfg.feedMax := (length_flipBit _ _ _).trans_le hl
  rw [exec_rxfeed_reject (k := .crcMismatch) (d := flipBit (frameBytes f) (4 + i) k) hflipped ?_, ← hbuf]
  · rfl
  · rw [hbuf, List.nil_append, frameBytes_eq_layout, flipBit_layout hip,
      scanFront_candidate hr ((length_flipBit _ _ _).trans hp), if_neg (not_not.mpr rfl), wordOfBytes_hi_lo, hc,
      if_pos (crc16_flipped_payload_ne hip hk _)]

/-- Settles O38: what a pass accepts is a whole frame at the front, which the decoder reads when it stands alone. -/
theorem loopFrameIsFdecFrame : Obligations.LoopFrameIsFdecFrame := by
  unfold Obligations.LoopFrameIsFdecFrame
  intro reg buf f total s h
  obtain ⟨sender, c, len, p, hi, lo, rest, rfl, hp, -, hc, rfl, rfl⟩ := scanFront_accept h
  refine exec_fdec_ok ?_ s
  rw [take_layout _ _ _ _ _ _ _ hp, decodeFrame_marked hp, if_neg (not_not.mpr hc)]

/-! ### The worked examples -/

/-- The heartbeat of the worked examples (40_crc16.md section 4). -/
def heartbeat : Frame := { senderId := 0x01#8, command := 0x0F#8, length := 0x00#8, payload := [], crc := 0xCA66#16 }

theorem frameBytes_heartbeat :
    frameBytes heartbeat = [0x02#8, 0x01#8, 0x0F#8, 0x00#8, 0xCA#8, 0x66#8, 0x03#8] := by decide

/-- Where its command is registered, the heartbeat is receivable: its CRC is the worked one. -/
theorem heartbeat_receivable {reg : Registry} (h : registryLookup reg 0x0F#8 = some 0x00#8) :
    ReceivableFrame reg heartbeat := by
  obtain ⟨-, -, -, hcrc⟩ := crc16RequestReturnsChecksum
  exact ⟨rfl, Option.ne_none_iff_exists'.mpr ⟨_, h⟩, hcrc.symm⟩

/-- A wrong first byte in a feed to an empty buffer is rejected, and with it what follows it (R153). -/
theorem exec_rxfeed_badStart {b : Byte} (hb : b ≠ START) {rest : Bytes} {s : State}
    (hl : (b :: rest).length ≤ s.cfg.feedMax) (hbuf : s.buf = []) :
    exec (.rxfeed (b :: rest)) s =
      .next (respond (.ok (.outcomes [.error .invalidStart ((b :: rest).take DIAG_MAX)])) s) := by
  rw [exec_rxfeed_reject hl (by rw [hbuf]; exact scanFront_badStart s.cfg.registry hb rest), ← hbuf]

/-- Settles O34: the bad byte is rejected with all that follows it in its chunk; the heartbeat in a chunk of its own is
received. -/
theorem chunkingMattersAfterError : Obligations.ChunkingMattersAfterError := by
  unfold Obligations.ChunkingMattersAfterError
  intro s hbuf hmax hreg
  have hframe := exec_rxfeed_frameBytes (heartbeat_receivable hreg)
    (by rw [frameBytes_heartbeat]; exact Nat.le_trans (by decide) hmax) hbuf
  rw [frameBytes_heartbeat] at hframe
  exact ⟨exec_rxfeed_badStart (by decide) hmax hbuf,
    exec_rxfeed_badStart (by decide) (Nat.le_trans (by decide) hmax) hbuf, hframe⟩

/-- Settles O35: with one byte lost, the span of `LEN` = 0 ends at the next heartbeat's START, where END should stand. -/
theorem lostByteCostsNextFrame : Obligations.LostByteCostsNextFrame := by
  unfold Obligations.LostByteCostsNextFrame
  intro s hbuf hmax hreg
  have hcommand : registryLookup s.cfg.registry 0x0F#8 ≠ none := Option.ne_none_iff_exists'.mpr ⟨_, hreg⟩
  refine exec_rxfeed_reject hmax ?_
  rw [hbuf]
  exact (scanFront_candidate (len := 0x00#8) (p := []) hcommand rfl 0x01#8 0xCA#8 0x03#8 START
    [0x01#8, 0x0F#8, 0x00#8, 0xCA#8, 0x66#8, 0x03#8]).trans (if_pos (by decide))

end Sys2Proof.Machine
end

section
/-! Proofs about the chunking of a clean stream (spec 44_reassembler.md section 5). -/

namespace Sys2Proof.Machine

open Sys2Proof Sys2Proof.Spec

/-- The bytes of a list of frames, one after the other. -/
def streamBytes (fs : List Frame) : Bytes := (fs.map frameBytes).flatten

theorem streamBytes_cons (f : Frame) (fs : List Frame) : streamBytes (f :: fs) = frameBytes f ++ streamBytes fs := rfl

theorem length_frameBytes {f : Frame} (hp : f.payload.length = f.length.toNat) :
    (frameBytes f).length = 7 + f.length.toNat := by
  rw [frameBytes_eq_layout, length_layout _ _ _ _ _ _ _ hp, List.length_nil, Nat.add_zero]

/-- A byte that stands in a front part stands in the whole. -/
theorem byteAt_append_left {s : Bytes} {i : Nat} (hi : i < s.length) (t : Bytes) :
    byteAt (s ++ t) i = byteAt s i := List.getD_append s t 0#8 i hi

/-- Less than a receivable frame at the front of a stream is waited on (R29, R162). -/
theorem restInvariant_of_partial_frame {reg : Registry} {f : Frame} (hf : ReceivableFrame reg f)
    {buf tail rest : Bytes} (hbuf : buf ++ tail = frameBytes f ++ rest)
    (hlt : buf.length < (frameBytes f).length) : RestInvariant reg buf := by
  obtain ⟨hp, hr, -⟩ := hf
  have hlen := length_frameBytes hp
  have hbyte : ∀ i < buf.length, byteAt buf i = byteAt (frameBytes f) i := fun i hi => by
    rw [← byteAt_append_left hi tail, hbuf, byteAt_append_left (hi.trans hlt)]
  by_cases h0 : buf.length = 0
  · exact .inl h0
  have hstart : byteAt buf 0 = START := hbyte 0 (by omega)
  by_cases h4 : buf.length < 4
  · exact .inr (.inl ⟨hstart, h4⟩)
  have hcommand : byteAt buf 2 = f.command := hbyte 2 (by omega)
  have hlength : byteAt buf 3 = f.length := hbyte 3 (by omega)
  exact .inr (.inr ⟨hstart, by omega, hcommand ▸ hr, by rw [hlength]; omega⟩)

/-- A run on a receivable frame and what follows it emits the frame and goes on behind it (R159). -/
theorem parseBuffer_frameBytes_append {reg : Registry} {f : Frame} (hf : ReceivableFrame reg f) (rest : Bytes) :
    parseBuffer reg (frameBytes f ++ rest) =
      (.frame f :: (parseBuffer reg rest).1, (parseBuffer reg rest).2) := by
  obtain ⟨hp, hr, hc⟩ := hf
  have hwire : frameBytes f ++ rest =
      layout START f.senderId f.command f.length f.payload (hiByte f.crc) (loByte f.crc) END rest := by
    rw [frameBytes_eq_layout, ← span_eq_layout, wire_eq_layout]
  rw [hwire, parseBuffer_frame hr hp (by rw [wordOfBytes_hi_lo, hc]), wordOfBytes_hi_lo]

/-- A run on the front part of a clean stream emits the frames that are whole and leaves the rest of the stream. -/
theorem parseBuffer_stream {reg : Registry} {fs : List Frame} (hfs : ∀ f ∈ fs, ReceivableFrame reg f)
    {buf tail : Bytes} (hbuf : buf ++ tail = streamBytes fs) :
    ∃ done rest, fs = done ++ rest ∧ (parseBuffer reg buf).1 = done.map .frame ∧
      (parseBuffer reg buf).2 ++ tail = streamBytes rest := by
  induction fs generalizing buf with
  | nil =>
    obtain ⟨rfl, rfl⟩ := List.append_eq_nil_iff.mp hbuf
    exact ⟨[], [], rfl, rfl, rfl⟩
  | cons f fs ih =>
    have hf := hfs f List.mem_cons_self
    rw [streamBytes_cons] at hbuf
    by_cases hlt : buf.length < (frameBytes f).length
    · have hwait := (scanFront_wait_iff reg buf).mpr (restInvariant_of_partial_frame hf hbuf hlt)
      rw [parseBuffer_wait hwait]
      exact ⟨[], f :: fs, rfl, rfl, hbuf⟩
    · obtain ⟨behind, rfl⟩ : frameBytes f <+: buf :=
        List.prefix_of_prefix_length_le ⟨_, rfl⟩ ⟨_, hbuf⟩ (Nat.not_lt.mp hlt)
      rw [List.append_assoc, List.append_cancel_left_eq] at hbuf
      obtain ⟨done, rest, rfl, hout, hleft⟩ := ih (fun g hg => hfs g (List.mem_cons_of_mem f hg)) hbuf
      rw [parseBuffer_frameBytes_append hf]
      exact ⟨f :: done, rest, rfl, congrArg _ hout, hleft⟩

/-- A rest state that is a clean stream is the empty one: a whole frame is not waited on. -/
theorem stream_eq_nil_of_rest {reg : Registry} {fs : List Frame} (hfs : ∀ f ∈ fs, ReceivableFrame reg f)
    (hrest : RestInvariant reg (streamBytes fs)) : fs = [] := by
  cases fs with
  | nil => rfl
  | cons f fs =>
    have hwait := parseBuffer_wait ((scanFront_wait_iff reg _).mpr hrest)
    rw [streamBytes_cons, parseBuffer_frameBytes_append (hfs f List.mem_cons_self)] at hwait
    cases hwait

/-- A chunk as its feeder's request. -/
def feedRequest (q : Nat) (chunk : Bytes) : PortInput := .request q { op := 0x40#8, operands := .chunk chunk }

/-- The state after the feed of a chunk, with `rest` left on the port: the run's, with the feeder noted. -/
def afterFeed (q : Nat) (chunk : Bytes) (rest : List PortInput) (s : State) : State :=
  respond (.ok (.outcomes (parseBuffer s.cfg.registry (s.buf ++ chunk)).1))
    { s with port := rest, feeder := some q, buf := (parseBuffer s.cfg.registry (s.buf ++ chunk)).2 }

/-- The step of a legal chunk from a requester that may feed (R48). -/
theorem step_feedRequest {q : Nat} {chunk : Bytes} {rest : List PortInput} {s : State}
    (hport : s.port = feedRequest q chunk :: rest) (hfeed : s.feeder = none ∨ s.feeder = some q)
    (hl : chunk.length ≤ s.cfg.feedMax) : step s = .next (afterFeed q chunk rest s) := by
  rw [step_decoded hport (decode_encode (.rxfeed chunk)) fun _ => hfeed]
  exact exec_rxfeed (s := { s with port := rest, feeder := some q }) hl

/-- Chunks that complete a clean stream, of which the buffer holds the front in a rest state, come out as its frames. -/
theorem run_stream (q : Nat) (chunks : List Bytes) (fs : List Frame) (s : State)
    (hfs : ∀ f ∈ fs, ReceivableFrame s.cfg.registry f) (hchunks : ∀ c ∈ chunks, c.length ≤ s.cfg.feedMax)
    (hstream : s.buf ++ chunks.flatten = streamBytes fs) (hrest : RestInvariant s.cfg.registry s.buf)
    (hfeed : s.feeder = none ∨ s.feeder = some q) (hport : s.port = chunks.map (feedRequest q)) :
    ∃ t : State, Host.Core.run Sys2Proof.core chunks.length s = .next t ∧ t.buf = [] ∧ t.port = [] ∧ t.cfg = s.cfg ∧
      ∃ rs : List Response, rs.length = chunks.length ∧ t.responses = s.responses ++ rs ∧
        outcomesOf rs = fs.map .frame := by
  induction chunks generalizing fs s with
  | nil =>
    rw [List.flatten_nil, List.append_nil] at hstream
    rw [hstream] at hrest
    cases stream_eq_nil_of_rest hfs hrest
    exact ⟨s, rfl, hstream, hport, rfl, [], rfl, (List.append_nil _).symm, rfl⟩
  | cons c chunks ih =>
    have hstep := step_feedRequest hport hfeed (hchunks c List.mem_cons_self)
    rw [List.flatten_cons, ← List.append_assoc] at hstream
    obtain ⟨done, rest, rfl, hout, hleft⟩ := parseBuffer_stream hfs hstream
    obtain ⟨t, hrun, htbuf, htport, htcfg, rs, hlen, hresp, houts⟩ :=
      ih rest (afterFeed q c (chunks.map (feedRequest q)) s) (fun f hf => hfs f (List.mem_append_right done hf))
        (fun c' hc' => hchunks c' (List.mem_cons_of_mem c hc')) hleft (parseBuffer_rest _ _) (.inr rfl) rfl
    refine ⟨t, (run_step_next Sys2Proof.core chunks.length s _ hstep).trans hrun, htbuf, htport, htcfg, _ :: rs,
      congrArg Nat.succ hlen, hresp.trans (List.append_assoc _ _ _), ?_⟩
    rw [outcomesOf, hout, houts, List.map_append]

/-- Settles O33: from an empty buffer the whole stream is still to come. -/
theorem chunkingOfCleanStreamDoesNotMatter : Obligations.ChunkingOfCleanStreamDoesNotMatter := by
  unfold Obligations.ChunkingOfCleanStreamDoesNotMatter
  intro fs chunks q s hfs hchunks hflat hbuf hfeed hport
  exact run_stream q chunks fs s hfs hchunks (by rw [hbuf]; exact hflat) (.inl (by rw [hbuf]; rfl)) hfeed hport

end Sys2Proof.Machine
end
